-- ==== Sys2Proof/Word.lean ====
section
/-! DEFINITION. The bit vectors this hardware computes with (spec/00_scope.md R4, R5). -/

namespace Sys2Proof

/-- A memory byte, a general register, a timer: `XLEN` = 8 bits (R4). -/
abbrev Byte := BitVec 8

/-- `pc`, `I`, a stack entry, an instruction word: `ALEN` = 16 bits (R4, R90). -/
abbrev Word := BitVec 16

/-- A 4-bit slice of the instruction word: a register number or the height `n` (R91). -/
abbrev Nibble := BitVec 4

/-- The 12-bit address field `nnn` (R91). -/
abbrev Addr12 := BitVec 12

/-- A point in time, counted in units of the host's clock; `Params.clockHz` says how many units make a
second (R30; the spec gives no resolution, N9). -/
abbrev Time := Nat

end Sys2Proof
end

