-- ==== Sys2Proof/Machine/Flags.lean ====
section
/-! DEFINITION. Every value the hardware writes to VF as a flag (spec/10_state.md R22, spec/42_alu.md R171), and the
8-bit results beside them. -/

namespace Sys2Proof.Machine

/-- A flag as the byte VF receives, 1 or 0. -/
def flagByte (c : Bool) : Byte := if c then 1 else 0

/-- `8xy4`: 1 if `a + b > 255` (R166). -/
def carryFlag (a b : Byte) : Byte := flagByte (decide (a.toNat + b.toNat > 255))

/-- `8xy5`, `8xy7`: 1 if there is no borrow, minuend >= subtrahend (R167, R169). -/
def noBorrowFlag (minuend subtrahend : Byte) : Byte := flagByte (decide (minuend.toNat ≥ subtrahend.toNat))

/-- `8xy6`: bit 0, the bit shifted out (R168). -/
def lowBitFlag (a : Byte) : Byte := a &&& 1

/-- `8xyE`: bit 7, the bit shifted out (R170). -/
def highBitFlag (a : Byte) : Byte := a >>> 7

/-- `Dxyn`: 1 if a lit pixel was turned off (R201). -/
def collisionFlag (hit : Bool) : Byte := flagByte hit

/-- `(a + b) mod 256` (R161, R166). -/
def addWrap (a b : Byte) : Byte := BitVec.ofNat 8 ((a.toNat + b.toNat) % 256)

/-- `(a - b) mod 256`: `a - b` if `a >= b`, else `a - b + 256` (R167). -/
def subWrap (a b : Byte) : Byte := BitVec.ofNat 8 ((a.toNat + 256 - b.toNat) % 256)

end Sys2Proof.Machine
end

