-- ==== Sys2Proof/Syntax.lean ====
section
/-! DEFINITION. The 34 instructions, one constructor per row of spec/opcode_table.json, in the table's order
(spec/30_encoding.md R95). Every operand has the width of its field (R91), so no constructor can hold an operand
the encoding cannot. A field that is present in the word and ignored by the operation (`y` of `8xy6` and `8xyE`,
`n` of `9xy0`) is kept as an operand, so that no bit of a word is lost in decoding. -/

namespace Sys2Proof

/-- An instruction; each docstring gives the spec's pattern, its name and its rule. -/
inductive Instr where
  /-- `00E0` clear-screen (R200). -/
  | cls
  /-- `00EE` return (R140). -/
  | ret
  /-- `1nnn` jump nnn (R141). -/
  | jump (nnn : Addr12)
  /-- `2nnn` call nnn (R142). -/
  | call (nnn : Addr12)
  /-- `3xnn` skip-eq Vx,nn (R143). -/
  | skipEqImm (x : Nibble) (nn : Byte)
  /-- `4xnn` skip-neq Vx,nn (R144). -/
  | skipNeqImm (x : Nibble) (nn : Byte)
  /-- `5xy0` skip-eq Vx,Vy (R145). -/
  | skipEqReg (x y : Nibble)
  /-- `9xy0` skip-neq Vx,Vy; `n` is ignored (R146, R99). -/
  | skipNeqReg (x y n : Nibble)
  /-- `6xnn` load Vx,nn (R160). -/
  | loadImm (x : Nibble) (nn : Byte)
  /-- `7xnn` add Vx,nn (R161). -/
  | addImm (x : Nibble) (nn : Byte)
  /-- `8xy0` load Vx,Vy (R162). -/
  | loadReg (x y : Nibble)
  /-- `8xy1` or Vx,Vy (R163). -/
  | orReg (x y : Nibble)
  /-- `8xy2` and Vx,Vy (R164). -/
  | andReg (x y : Nibble)
  /-- `8xy3` xor Vx,Vy (R165). -/
  | xorReg (x y : Nibble)
  /-- `8xy4` add Vx,Vy (R166). -/
  | addReg (x y : Nibble)
  /-- `8xy5` sub Vx,Vy (R167). -/
  | subReg (x y : Nibble)
  /-- `8xy6` shr Vx; `y` is ignored (R168). -/
  | shr (x y : Nibble)
  /-- `8xy7` subn Vx,Vy (R169). -/
  | subnReg (x y : Nibble)
  /-- `8xyE` shl Vx; `y` is ignored (R170). -/
  | shl (x y : Nibble)
  /-- `Annn` set I,nnn (R180). -/
  | setI (nnn : Addr12)
  /-- `Bnnn` jump+offset nnn (R147). -/
  | jumpOffset (nnn : Addr12)
  /-- `Cxnn` random Vx,nn (R221). -/
  | random (x : Nibble) (nn : Byte)
  /-- `Dxyn` draw Vx,Vy,n (R201). -/
  | draw (x y n : Nibble)
  /-- `Ex9E` skip-key-pressed Vx (R215). -/
  | skipKey (x : Nibble)
  /-- `ExA1` skip-key-not-pressed Vx (R216). -/
  | skipNotKey (x : Nibble)
  /-- `Fx07` load Vx,delay (R218). -/
  | loadDelay (x : Nibble)
  /-- `Fx0A` wait-key Vx (R217). -/
  | waitKey (x : Nibble)
  /-- `Fx15` set delay,Vx (R219). -/
  | setDelay (x : Nibble)
  /-- `Fx18` set sound,Vx (R220). -/
  | setSound (x : Nibble)
  /-- `Fx1E` add I,Vx (R181). -/
  | addI (x : Nibble)
  /-- `Fx29` set I,font(Vx) (R182). -/
  | setIFont (x : Nibble)
  /-- `Fx33` store-BCD Vx (R183). -/
  | storeBcd (x : Nibble)
  /-- `Fx55` store-regs V0..Vx (R184). -/
  | storeRegs (x : Nibble)
  /-- `Fx65` load-regs V0..Vx (R185). -/
  | loadRegs (x : Nibble)
  deriving DecidableEq, Repr

end Sys2Proof
end

