-- ==== Sys2Proof/WellFormed.lean ====
section
/-! DEFINITION. Well-formed instructions. Whether an operand fits its field is settled by its type (Syntax.lean), so
every term of `Instr` is an instruction the hardware decodes and executes, and no check is left for the machine. What
remains is the form an assembler emits: the fields the operation ignores are zero (spec/30_encoding.md R99, R105).
The machine executes the other forms just the same (R99, R168, R170); nothing about execution assumes this check. -/

namespace Sys2Proof

/-- The canonical assembled form: an ignored field is zero (`9xy0`: R99; `8xy6`, `8xyE`: R105). -/
def Instr.wellFormed : Instr → Bool
  | .skipNeqReg _ _ n => n == 0
  | .shr _ y => y == 0
  | .shl _ y => y == 0
  | .cls => true
  | .ret => true
  | .jump _ => true
  | .call _ => true
  | .skipEqImm _ _ => true
  | .skipNeqImm _ _ => true
  | .skipEqReg _ _ => true
  | .loadImm _ _ => true
  | .addImm _ _ => true
  | .loadReg _ _ => true
  | .orReg _ _ => true
  | .andReg _ _ => true
  | .xorReg _ _ => true
  | .addReg _ _ => true
  | .subReg _ _ => true
  | .subnReg _ _ => true
  | .setI _ => true
  | .jumpOffset _ => true
  | .random _ _ => true
  | .draw _ _ _ => true
  | .skipKey _ => true
  | .skipNotKey _ => true
  | .loadDelay _ => true
  | .waitKey _ => true
  | .setDelay _ => true
  | .setSound _ => true
  | .addI _ => true
  | .setIFont _ => true
  | .storeBcd _ => true
  | .storeRegs _ => true
  | .loadRegs _ => true

end Sys2Proof
end

