-- ==== Sys2Proof/Decode.lean ====
section
/-! DEFINITION. The decoder and, after it, the encoder (spec/30_encoding.md). The opcode numbers are those of
spec/opcode_table.json (R95, decision D1): UNVERIFIED but for `6xnn` and `7xnn`, which the source shows (assumption 4). -/

namespace Sys2Proof

/-! The fields of an instruction word (R91). -/

def fieldOp (w : Word) : Nibble := w.extractLsb' 12 4
def fieldX (w : Word) : Nibble := w.extractLsb' 8 4
def fieldY (w : Word) : Nibble := w.extractLsb' 4 4
def fieldN (w : Word) : Nibble := w.extractLsb' 0 4
def fieldNN (w : Word) : Byte := w.extractLsb' 0 8
def fieldNNN (w : Word) : Addr12 := w.extractLsb' 0 12

/-- What a word decodes to: one of the 34 instructions with its field values, or `UNKNOWN(w)` (R107). -/
inductive Decoded where
  /-- The word matches the row of `i`. -/
  | instr (i : Instr)
  /-- The word matches no row: an unknown opcode, rejected by name with the word it was (R102). -/
  | unknown (w : Word)
  deriving DecidableEq, Repr

/-- Family 0 is decoded on the whole word (R96). -/
def decodeFamily0 (w : Word) : Decoded :=
  if w = 0x00E0#16 then .instr .cls
  else if w = 0x00EE#16 then .instr .ret
  else .unknown w

/-- Family 5 requires `n` = 0 (R97). -/
def decodeFamily5 (w : Word) : Decoded :=
  if fieldN w = 0x0#4 then .instr (.skipEqReg (fieldX w) (fieldY w)) else .unknown w

/-- Family 8 discriminates on `n` (R98). -/
def decodeFamily8 (w : Word) : Decoded :=
  match (fieldN w).toNat with
  | 0x0 => .instr (.loadReg (fieldX w) (fieldY w))
  | 0x1 => .instr (.orReg (fieldX w) (fieldY w))
  | 0x2 => .instr (.andReg (fieldX w) (fieldY w))
  | 0x3 => .instr (.xorReg (fieldX w) (fieldY w))
  | 0x4 => .instr (.addReg (fieldX w) (fieldY w))
  | 0x5 => .instr (.subReg (fieldX w) (fieldY w))
  | 0x6 => .instr (.shr (fieldX w) (fieldY w))
  | 0x7 => .instr (.subnReg (fieldX w) (fieldY w))
  | 0xE => .instr (.shl (fieldX w) (fieldY w))
  | _ => .unknown w

/-- Family E discriminates on the low byte (R100). -/
def decodeFamilyE (w : Word) : Decoded :=
  if fieldNN w = 0x9E#8 then .instr (.skipKey (fieldX w))
  else if fieldNN w = 0xA1#8 then .instr (.skipNotKey (fieldX w))
  else .unknown w

/-- Family F discriminates on the low byte (R101). -/
def decodeFamilyF (w : Word) : Decoded :=
  if fieldNN w = 0x07#8 then .instr (.loadDelay (fieldX w))
  else if fieldNN w = 0x0A#8 then .instr (.waitKey (fieldX w))
  else if fieldNN w = 0x15#8 then .instr (.setDelay (fieldX w))
  else if fieldNN w = 0x18#8 then .instr (.setSound (fieldX w))
  else if fieldNN w = 0x1E#8 then .instr (.addI (fieldX w))
  else if fieldNN w = 0x29#8 then .instr (.setIFont (fieldX w))
  else if fieldNN w = 0x33#8 then .instr (.storeBcd (fieldX w))
  else if fieldNN w = 0x55#8 then .instr (.storeRegs (fieldX w))
  else if fieldNN w = 0x65#8 then .instr (.loadRegs (fieldX w))
  else .unknown w

/-- The decoder: a total function of the word alone; the first nibble selects the family (R94, R107). -/
def decodeWord (w : Word) : Decoded :=
  match (fieldOp w).toNat with
  | 0x0 => decodeFamily0 w
  | 0x1 => .instr (.jump (fieldNNN w))
  | 0x2 => .instr (.call (fieldNNN w))
  | 0x3 => .instr (.skipEqImm (fieldX w) (fieldNN w))
  | 0x4 => .instr (.skipNeqImm (fieldX w) (fieldNN w))
  | 0x5 => decodeFamily5 w
  | 0x6 => .instr (.loadImm (fieldX w) (fieldNN w))
  | 0x7 => .instr (.addImm (fieldX w) (fieldNN w))
  | 0x8 => decodeFamily8 w
  | 0x9 => .instr (.skipNeqReg (fieldX w) (fieldY w) (fieldN w))
  | 0xA => .instr (.setI (fieldNNN w))
  | 0xB => .instr (.jumpOffset (fieldNNN w))
  | 0xC => .instr (.random (fieldX w) (fieldNN w))
  | 0xD => .instr (.draw (fieldX w) (fieldY w) (fieldN w))
  | 0xE => decodeFamilyE w
  | _ => decodeFamilyF w

/-! Byte order (R64): the byte at the lower address is the high byte of the word. -/

def bigEndian (hi lo : Byte) : Word := (hi.setWidth 16 <<< 8) ||| lo.setWidth 16
def highByte (w : Word) : Byte := w.extractLsb' 8 8
def lowByte (w : Word) : Byte := w.extractLsb' 0 8

/-- Decoding a run of bytes, lowest address first: what the first two decode to, and the bytes after them. `none` is
a run too short to hold an instruction word, which has 2 bytes (R90). -/
def decodeBytes : List Byte → Option (Decoded × List Byte)
  | hi :: lo :: rest => some (decodeWord (bigEndian hi lo), rest)
  | [_] => none
  | [] => none

/-! The encoder, written from the "Encoding:" line of each instruction's rule. -/

/-- `match | x<<8` -/
def wordX (fixed : Word) (x : Nibble) : Word := fixed ||| (x.setWidth 16 <<< 8)
/-- `match | x<<8 | y<<4` -/
def wordXY (fixed : Word) (x y : Nibble) : Word := fixed ||| (x.setWidth 16 <<< 8) ||| (y.setWidth 16 <<< 4)
/-- `match | x<<8 | y<<4 | n` -/
def wordXYN (fixed : Word) (x y n : Nibble) : Word := wordXY fixed x y ||| n.setWidth 16
/-- `match | x<<8 | nn` -/
def wordXNN (fixed : Word) (x : Nibble) (nn : Byte) : Word := fixed ||| (x.setWidth 16 <<< 8) ||| nn.setWidth 16
/-- `match | nnn` -/
def wordNNN (fixed : Word) (nnn : Addr12) : Word := fixed ||| nnn.setWidth 16

/-- The word of an instruction (R92, R95 and each instruction's rule). -/
def encode : Instr → Word
  | .cls => 0x00E0#16
  | .ret => 0x00EE#16
  | .jump nnn => wordNNN 0x1000#16 nnn
  | .call nnn => wordNNN 0x2000#16 nnn
  | .skipEqImm x nn => wordXNN 0x3000#16 x nn
  | .skipNeqImm x nn => wordXNN 0x4000#16 x nn
  | .skipEqReg x y => wordXY 0x5000#16 x y
  | .skipNeqReg x y n => wordXYN 0x9000#16 x y n
  | .loadImm x nn => wordXNN 0x6000#16 x nn
  | .addImm x nn => wordXNN 0x7000#16 x nn
  | .loadReg x y => wordXY 0x8000#16 x y
  | .orReg x y => wordXY 0x8001#16 x y
  | .andReg x y => wordXY 0x8002#16 x y
  | .xorReg x y => wordXY 0x8003#16 x y
  | .addReg x y => wordXY 0x8004#16 x y
  | .subReg x y => wordXY 0x8005#16 x y
  | .shr x y => wordXY 0x8006#16 x y
  | .subnReg x y => wordXY 0x8007#16 x y
  | .shl x y => wordXY 0x800E#16 x y
  | .setI nnn => wordNNN 0xA000#16 nnn
  | .jumpOffset nnn => wordNNN 0xB000#16 nnn
  | .random x nn => wordXNN 0xC000#16 x nn
  | .draw x y n => wordXYN 0xD000#16 x y n
  | .skipKey x => wordX 0xE09E#16 x
  | .skipNotKey x => wordX 0xE0A1#16 x
  | .loadDelay x => wordX 0xF007#16 x
  | .waitKey x => wordX 0xF00A#16 x
  | .setDelay x => wordX 0xF015#16 x
  | .setSound x => wordX 0xF018#16 x
  | .addI x => wordX 0xF01E#16 x
  | .setIFont x => wordX 0xF029#16 x
  | .storeBcd x => wordX 0xF033#16 x
  | .storeRegs x => wordX 0xF055#16 x
  | .loadRegs x => wordX 0xF065#16 x

/-! The opcode table's two columns (R94, R95): the fixed bits of an instruction's row and the mask that covers them. -/

/-- `match` of the instruction's row. -/
def rowMatch : Instr → Word
  | .cls => 0x00E0#16
  | .ret => 0x00EE#16
  | .jump _ => 0x1000#16
  | .call _ => 0x2000#16
  | .skipEqImm _ _ => 0x3000#16
  | .skipNeqImm _ _ => 0x4000#16
  | .skipEqReg _ _ => 0x5000#16
  | .skipNeqReg _ _ _ => 0x9000#16
  | .loadImm _ _ => 0x6000#16
  | .addImm _ _ => 0x7000#16
  | .loadReg _ _ => 0x8000#16
  | .orReg _ _ => 0x8001#16
  | .andReg _ _ => 0x8002#16
  | .xorReg _ _ => 0x8003#16
  | .addReg _ _ => 0x8004#16
  | .subReg _ _ => 0x8005#16
  | .shr _ _ => 0x8006#16
  | .subnReg _ _ => 0x8007#16
  | .shl _ _ => 0x800E#16
  | .setI _ => 0xA000#16
  | .jumpOffset _ => 0xB000#16
  | .random _ _ => 0xC000#16
  | .draw _ _ _ => 0xD000#16
  | .skipKey _ => 0xE09E#16
  | .skipNotKey _ => 0xE0A1#16
  | .loadDelay _ => 0xF007#16
  | .waitKey _ => 0xF00A#16
  | .setDelay _ => 0xF015#16
  | .setSound _ => 0xF018#16
  | .addI _ => 0xF01E#16
  | .setIFont _ => 0xF029#16
  | .storeBcd _ => 0xF033#16
  | .storeRegs _ => 0xF055#16
  | .loadRegs _ => 0xF065#16

/-- `mask` of the instruction's row. -/
def rowMask : Instr → Word
  | .cls => 0xFFFF#16
  | .ret => 0xFFFF#16
  | .jump _ => 0xF000#16
  | .call _ => 0xF000#16
  | .skipEqImm _ _ => 0xF000#16
  | .skipNeqImm _ _ => 0xF000#16
  | .skipEqReg _ _ => 0xF00F#16
  | .skipNeqReg _ _ _ => 0xF000#16
  | .loadImm _ _ => 0xF000#16
  | .addImm _ _ => 0xF000#16
  | .loadReg _ _ => 0xF00F#16
  | .orReg _ _ => 0xF00F#16
  | .andReg _ _ => 0xF00F#16
  | .xorReg _ _ => 0xF00F#16
  | .addReg _ _ => 0xF00F#16
  | .subReg _ _ => 0xF00F#16
  | .shr _ _ => 0xF00F#16
  | .subnReg _ _ => 0xF00F#16
  | .shl _ _ => 0xF00F#16
  | .setI _ => 0xF000#16
  | .jumpOffset _ => 0xF000#16
  | .random _ _ => 0xF000#16
  | .draw _ _ _ => 0xF000#16
  | .skipKey _ => 0xF0FF#16
  | .skipNotKey _ => 0xF0FF#16
  | .loadDelay _ => 0xF0FF#16
  | .waitKey _ => 0xF0FF#16
  | .setDelay _ => 0xF0FF#16
  | .setSound _ => 0xF0FF#16
  | .addI _ => 0xF0FF#16
  | .setIFont _ => 0xF0FF#16
  | .storeBcd _ => 0xF0FF#16
  | .storeRegs _ => 0xF0FF#16
  | .loadRegs _ => 0xF0FF#16

/-- The bytes of an instruction as memory holds them, lowest address first (R64). -/
def encodeBytes (i : Instr) : List Byte := [highByte (encode i), lowByte (encode i)]

/-- The word the opcode table means by the low `nbits` bits of `w`: an instruction has one 16-bit word (R90), and
bits from `nbits` up are 0. -/
def tableWord (nbits w : Nat) : Word := BitVec.ofNat 16 (w % 2 ^ nbits)

/-- The instruction the decoder reads from the bytes of a word numbered as the opcode table numbers it. -/
def decodeTableWord (nbits w : Nat) : Option Instr :=
  match decodeBytes [highByte (tableWord nbits w), lowByte (tableWord nbits w)] with
  | some (.instr i, _) => some i
  | some (.unknown _, _) => none
  | none => none

end Sys2Proof
end

