-- ==== Sys2Proof/Config.lean ====
section
/-! DEFINITION. What the source fixes for every machine (spec/00_scope.md R4), and the free values: the environment
inputs of a step, which are under no law (R9). The parameters R4 marks OPEN or gives an alternative for are in
Machine/Params.lean. -/

namespace Sys2Proof

/-- `MEM_SIZE`: bytes of memory, addresses 0x000 to 0xFFF. -/
abbrev Config.memSize : Nat := 4096

/-- `LOAD_ADDR`: first address of the program image and reset value of `pc`. -/
abbrev Config.loadAddr : Nat := 0x200

/-- `MAX_IMAGE` = `MEM_SIZE - LOAD_ADDR` (R272). -/
abbrev Config.maxImage : Nat := 3584

/-- FREE VALUE (assumption 1). `rand_byte`, drawn once per execution of `Cxnn`: any byte (R9, R221, decision D17). -/
opaque Config.randByte : Nat → Byte

/-- FREE VALUE (assumption 2). The time from `t_ref` to the `now` a `cycle` samples, in clock units: any amount from 0
up, since the host may call `cycle` at any rate and `now >= t_ref` always (R9, R121, R281, decision D16). -/
opaque Config.elapsed : Nat → Nat

end Sys2Proof
end

