-- ==== Sys2Proof/Machine/Params.lean ====
section
/-! DEFINITION. The implementation parameters of spec/00_scope.md R4 that are OPEN (`FONT_BASE`, `FONT_DATA`) or have
an alternative (`PROTECT_LOW`, `STACK_LIMIT`), the clock's resolution (N9), and the reset content of memory, which
depends on them (R39, R61). -/

namespace Sys2Proof.Machine

/-- The parameters of one machine. -/
structure Params where
  /-- `FONT_BASE`, with its constraint `0 <= FONT_BASE <= 0x1B0` (R4, D4). -/
  fontBase : Fin 0x1B1
  /-- `FONT_DATA`, byte `5*g + j` is row `j` of glyph `g` (R39, D5). -/
  fontData : Vector Byte 80
  /-- `PROTECT_LOW`: whether a write below 0x200 faults (R63, D8). -/
  protectLow : Bool
  /-- `STACK_LIMIT`: the depth at which a push faults, `none` for the source's unbounded stack (R25, D20). -/
  stackLimit : Option Nat
  /-- Clock units in one second, the unit of `Time` (N9: the source gives no resolution). -/
  clockHz : Nat
  deriving DecidableEq, Repr, Inhabited

/-- The default `FONT_DATA` (R39), glyphs 0 to F in order. -/
def defaultFont : Vector Byte 80 := #v[
  0xF0, 0x90, 0x90, 0x90, 0xF0,  0x20, 0x60, 0x20, 0x20, 0x70,
  0xF0, 0x10, 0xF0, 0x80, 0xF0,  0xF0, 0x10, 0xF0, 0x10, 0xF0,
  0x90, 0x90, 0xF0, 0x10, 0x10,  0xF0, 0x80, 0xF0, 0x10, 0xF0,
  0xF0, 0x80, 0xF0, 0x90, 0xF0,  0xF0, 0x10, 0x20, 0x40, 0x40,
  0xF0, 0x90, 0xF0, 0x90, 0xF0,  0xF0, 0x90, 0xF0, 0x10, 0xF0,
  0xF0, 0x90, 0xF0, 0x90, 0x90,  0xE0, 0x90, 0xE0, 0x90, 0xE0,
  0xF0, 0x80, 0x80, 0x80, 0xF0,  0xE0, 0x90, 0x90, 0x90, 0xE0,
  0xF0, 0x80, 0xF0, 0x80, 0xF0,  0xF0, 0x80, 0xF0, 0x80, 0x80]

/-- The spec's defaults (R4); the clock counts nanoseconds (DESIGN CHOICE, assumption 3). -/
def defaultParams : Params :=
  { fontBase := 0x050
    fontData := defaultFont
    protectLow := true
    stackLimit := none
    clockHz := 1000000000 }

/-- `MEM_FILL`: the reset value of a byte that is neither font nor image (R39, D6). -/
def memFill : Byte := 0x00

/-- What a byte of memory nothing has written reads as: its reset content, the font table at `FONT_BASE` and
`MEM_FILL` elsewhere (R39, R61). The font lies wholly below 0x200. -/
def Params.resetByte (p : Params) (a : Nat) : Byte :=
  if a < 0x200 then
    if h : p.fontBase.val ≤ a ∧ a < p.fontBase.val + 80 then p.fontData[a - p.fontBase.val] else memFill
  else memFill

/-- `TIMER_PERIOD` is 1/60 second (R4, R121): whether a time of `d` clock units is at least one period. -/
def Params.periodElapsed (p : Params) (d : Nat) : Bool := decide (p.clockHz ≤ 60 * d)

end Sys2Proof.Machine
end

