-- ==== Sys2Proof/Machine/State.lean ====
section
/-! DEFINITION. The state of the core (spec/10_state.md R20), its faults (spec/60_exceptions.md R241), and the state
right after reset (R39). -/

namespace Sys2Proof.Machine

/-- Memory: the bytes that differ from their reset content, addresses strictly rising. -/
abbrev Memory := List Host.Cell

/-- The display as the `display()` port gives it, 32 rows of 64 bits, row 0 (the top) first; column 0 (the left) is
a row's most significant bit (R27, R36, D33). -/
abbrev Display := Vector (BitVec 64) 32

/-- Why a `cycle` or a reset ends in the outcome `Fault(code, info)`; the argument is what R241 records. Each is the
spec's own fatal condition, on which the hardware stops for good (R242), so stopping is SAFE. -/
inductive Fault where
  /-- Code 1, raised by `00EE` on an empty stack; records the address of the `00EE` (R140). Safe: the source calls it
  fatal. -/
  | emptyStackReturn (a : Word)
  /-- Code 2, raised by reset when the image is longer than 3584 bytes; records its length (R272). Safe: the source
  calls it fatal. -/
  | imageTooLarge (len : Nat)
  /-- Code 3, raised by reset when the image cannot be read to its end (R272). Safe: the source calls it fatal. -/
  | imageReadFailure
  /-- Code 4, raised by fetch, `Dxyn`, `Fx65`, `Fx33` and `Fx55` on an address above 0xFFF; records the address
  (R62, R63, R122; D7). Safe: the machine stops where the source gives no behaviour. -/
  | memBounds (addr : Nat)
  /-- Code 5, raised by `Fx33` and `Fx55` on an address below 0x200 when `PROTECT_LOW`; records the address (R63; D8).
  Safe: the machine stops where the source gives no behaviour. -/
  | reservedWrite (addr : Nat)
  /-- Code 6, raised by `Ex9E` and `ExA1` when Vx exceeds 15; records the value (R215, R216; D9). Safe: the machine
  stops where the source gives no behaviour. -/
  | keyIndex (v : Byte)
  /-- Code 7, raised by `2nnn` when a stack limit is configured and reached; records the address of the call (R142;
  D20). Safe: never raised with the source's unbounded stack. -/
  | stackLimit (a : Word)
  deriving DecidableEq, Repr

/-- The code the fault latch records (R31, R241). -/
inductive FaultCode where
  | emptyStackReturn | imageTooLarge | imageReadFailure | memBounds | reservedWrite | keyIndex | stackLimit
  deriving DecidableEq, Repr

/-- Why a step has no meaning. -/
inductive Refusal where
  /-- Raised by an arm of `exec` whose instruction has no meaning yet; safe. No arm raises it: every instruction has
  its meaning, and no meaning refuses. -/
  | notModelled (mnemonic : String)
  deriving DecidableEq, Repr

/-- The complete state of the core: the spec's pieces in the order and under the names of R20, then the model's own
two fields. -/
structure State where
  /-- The 4096 bytes (R60), as the list of those that differ from `params.resetByte`. -/
  mem : Memory
  /-- V0 to VF (R21); VF, `V[15]`, is also the flag register (R22). -/
  V : Vector Byte 16
  /-- Program counter (R23). -/
  pc : Word
  /-- Index register (R24). -/
  I : Word
  /-- Call stack, the top first (R25). -/
  stack : List Word
  /-- Delay timer (R26). -/
  DT : Byte
  /-- Sound timer (R26). -/
  ST : Byte
  /-- Display pixels (R27). -/
  disp : Display
  /-- The display-modified flag (R28). -/
  dirty : Bool
  /-- Latched key state, `true` = pressed (R29). -/
  keys : Vector Bool 16
  /-- Reference time of the timer gate (R30). -/
  tRef : Time
  /-- The fault latch: `none` is `halted` = 0, `some c` is `halted` = 1 with the recorded code (R31). -/
  halted : Option FaultCode
  /-- The model's own: the parameters of this machine, which R33 sets apart from the state; no step writes them. They
  stand here because `exec` and `step` take no other argument, so that a statement about every state is one about
  every value of the OPEN parameters (R4, R39; assumption 5). -/
  params : Params
  /-- The model's own: how many environment inputs have been drawn, the index of the next free value (R9; assumption
  1). -/
  draws : Nat
  deriving DecidableEq, Repr, Inhabited

/-- The state reset establishes for parameters `p`, before the image is loaded, at the time `now` of reset (R39,
R271). -/
def State.initial (p : Params) (now : Time) : State :=
  { mem := []
    V := Vector.replicate 16 0x00
    pc := 0x0200
    I := 0x0000
    stack := []
    DT := 0x00
    ST := 0x00
    disp := Vector.replicate 32 0
    dirty := false
    keys := Vector.replicate 16 false
    tRef := now
    halted := none
    params := p
    draws := 0 }

/-- The machine right after reset with the spec's default parameters and an empty image (R39, R272). Time 0 is the
time of reset (assumption 3). -/
def State.reset : State := State.initial defaultParams 0

end Sys2Proof.Machine
end

