-- ==== Sys2Proof/Machine/Ops.lean ====
section
/-! DEFINITION. The named operations over memory, registers, stack, timers, display and keys that the meanings share. -/

namespace Sys2Proof.Machine

/-- The outcome of a step (R8). -/
abbrev Result := Host.Outcome State Fault Refusal

/-! Taking a fault. There is no handler, no vector and no saved state: the step ends with the outcome `Fault`, and
nothing of the state after it is defined but the latch (R242, R247; Machine/Ports.lean holds the latch). There is no
return from a fault (R248). -/

/-- `raise <Fault>(info)`: the step ends (R6). -/
def raise (f : Fault) : Result := .fault f

/-- Go on with the value a checked operation gives, or raise its fault. -/
def orRaise {α : Type} (r : Except Fault α) (k : α → Result) : Result :=
  match r with
  | .error f => raise f
  | .ok a => k a

/-- The code of a fault (R241). -/
def faultCode : Fault → FaultCode
  | .emptyStackReturn _ => .emptyStackReturn
  | .imageTooLarge _ => .imageTooLarge
  | .imageReadFailure => .imageReadFailure
  | .memBounds _ => .memBounds
  | .reservedWrite _ => .reservedWrite
  | .keyIndex _ => .keyIndex
  | .stackLimit _ => .stackLimit

/-- The code's number (R241; the spec's own numbering, D31). -/
def faultNumber : FaultCode → Nat
  | .emptyStackReturn => 1
  | .imageTooLarge => 2
  | .imageReadFailure => 3
  | .memBounds => 4
  | .reservedWrite => 5
  | .keyIndex => 6
  | .stackLimit => 7

/-! Memory as a list of cells in canonical form. -/

/-- The byte at `a`: the listed one, else the reset content. -/
def Memory.read (p : Params) : Memory → Nat → Byte
  | [], a => p.resetByte a
  | (k, b) :: m, a => if a = k then b else Memory.read p m a

/-- The cells that say "`b` at `a`": none when that is the reset content. -/
def Memory.cell (p : Params) (a : Nat) (b : Byte) : Memory :=
  if b = p.resetByte a then [] else [(a, b)]

/-- Write `b` at `a`, keeping the canonical form. -/
def Memory.write (p : Params) (a : Nat) (b : Byte) : Memory → Memory
  | [] => Memory.cell p a b
  | (k, c) :: m =>
    if k < a then (k, c) :: Memory.write p a b m
    else if k = a then Memory.cell p a b ++ m
    else Memory.cell p a b ++ (k, c) :: m

/-- The canonical form of the cells from address `lo` up: addresses strictly rising and below 4096, no cell equal to
the reset content. -/
def Memory.wfFrom (p : Params) : Nat → Memory → Bool
  | _, [] => true
  | lo, (a, b) :: m => decide (lo ≤ a) && decide (a < Config.memSize) && (b != p.resetByte a) && Memory.wfFrom p (a + 1) m

/-- The canonical form of memory. -/
def Memory.wf (p : Params) (m : Memory) : Bool := Memory.wfFrom p 0 m

/-! Plain updates, one per piece of state. -/

def State.withMem (s : State) (m : Memory) : State := { s with mem := m }
def State.withV (s : State) (v : Vector Byte 16) : State := { s with V := v }
def State.withPc (s : State) (t : Word) : State := { s with pc := t }
def State.withI (s : State) (t : Word) : State := { s with I := t }
def State.withStack (s : State) (k : List Word) : State := { s with stack := k }
def State.withDT (s : State) (b : Byte) : State := { s with DT := b }
def State.withST (s : State) (b : Byte) : State := { s with ST := b }
def State.withDisp (s : State) (d : Display) : State := { s with disp := d }
def State.withDirty (s : State) (b : Bool) : State := { s with dirty := b }
def State.withKeys (s : State) (k : Vector Bool 16) : State := { s with keys := k }
def State.withTRef (s : State) (t : Time) : State := { s with tRef := t }
def State.withHalted (s : State) (h : Option FaultCode) : State := { s with halted := h }
def State.withDraws (s : State) (n : Nat) : State := { s with draws := n }

/-! General registers (R21, R22). -/

/-- `V[x]`. -/
def State.reg (s : State) (x : Nibble) : Byte := s.V[x.toNat]

/-- `V[x] <- b`. -/
def State.setReg (s : State) (x : Nibble) (b : Byte) : State := s.withV (s.V.set x.toNat b)

/-- `V[15] <- flag`. -/
def State.setVF (s : State) (flag : Byte) : State := s.setReg 0xF#4 flag

/-- `V[0]` to `V[x]`, in order. -/
def State.regsThrough (s : State) (x : Nibble) : List Byte := s.V.toList.take (x.toNat + 1)

/-- `V[k] <- bytes[k]` for every `k` the list reaches; the other registers stay. -/
def State.setRegs (s : State) (bytes : List Byte) : State :=
  s.withV (Vector.ofFn fun k => (bytes[k.val]?).getD s.V[k])

/-! Memory accesses (R62, R63). -/

/-- `mem[a]`, unchecked. -/
def State.byteAt (s : State) (a : Nat) : Byte := Memory.read s.params s.mem a

/-- `mem[a] <- b`, unchecked. -/
def State.setByte (s : State) (a : Nat) (b : Byte) : State := s.withMem (Memory.write s.params a b s.mem)

/-- `MemRead(addr, 1)` (R62). -/
def State.memRead (s : State) (addr : Nat) : Except Fault Byte :=
  if addr > 0xFFF then .error (.memBounds addr) else .ok (s.byteAt addr)

/-- `MemRead` of `n` bytes from `addr` up, faulting at the first address that fails its check (R65, R76). -/
def State.memReads (s : State) (addr : Nat) : Nat → Except Fault (List Byte)
  | 0 => .ok []
  | n + 1 =>
    match s.memRead addr with
    | .error f => .error f
    | .ok b =>
      match s.memReads (addr + 1) n with
      | .error f => .error f
      | .ok bs => .ok (b :: bs)

/-- `MemWrite(addr, 1, b)` (R63): the bounds check comes first. -/
def State.memWrite (s : State) (addr : Nat) (b : Byte) : Except Fault State :=
  if addr > 0xFFF then .error (.memBounds addr)
  else if s.params.protectLow ∧ addr < 0x200 then .error (.reservedWrite addr)
  else .ok (s.setByte addr b)

/-- `MemWrite` of the bytes at `addr`, `addr + 1`, ..., faulting at the first that fails its check (R65, R76). -/
def State.memWrites (s : State) (addr : Nat) : List Byte → Except Fault State
  | [] => .ok s
  | b :: bs =>
    match s.memWrite addr b with
    | .error f => .error f
    | .ok t => t.memWrites (addr + 1) bs

/-- Lay bytes in memory from `a` up, unchecked: how reset loads the image (R271). -/
def State.placeBytes (s : State) (a : Nat) : List Byte → State
  | [] => s
  | b :: bs => (s.setByte a b).placeBytes (a + 1) bs

/-! Program counter and call stack. -/

/-- The address of the executing instruction, `A`; `pc` has been advanced past it (R122, 41_control_flow.md). -/
def State.instrAddr (s : State) : Word := s.pc - 2

/-- `pc <- (pc + 2) mod 65536`: fetch's advance, and what a taken skip adds (R122, R143). -/
def State.advance (s : State) : State := s.withPc (s.pc + 2)

/-- The skip of R148: advance over one more word if the condition holds. -/
def State.skipIf (s : State) (c : Bool) : State := s.withPc (if c then s.pc + 2 else s.pc)

/-- `pc <- (pc - 2) mod 65536`: the instruction replay of `Fx0A` (R217). -/
def State.rewind (s : State) : State := s.withPc (s.pc - 2)

/-- `STACK_LIMIT = k and length(stack) = k` (R142). -/
def State.stackFull (s : State) : Bool := s.params.stackLimit == some s.stack.length

/-- `push(stack, v)` (R25). -/
def State.push (s : State) (v : Word) : State := s.withStack (v :: s.stack)

/-- `MemRead(pc, 2)`: the instruction word, big-endian; the first failing address faults (R62, R64, R122). -/
def State.fetch (s : State) : Except Fault Word :=
  match s.memRead s.pc.toNat with
  | .error f => .error f
  | .ok hi =>
    match s.memRead (s.pc.toNat + 1) with
    | .error f => .error f
    | .ok lo => .ok (bigEndian hi lo)

/-- Store a word where the next fetch reads it, when both its bytes lie in memory. -/
def State.placeWord (s : State) (w : Word) : State :=
  if s.pc.toNat ≤ 0xFFE then s.placeBytes s.pc.toNat [highByte w, lowByte w] else s

/-! The timer gate (R121). -/

/-- A timer after one tick, saturating at 0 (R121). -/
def tickDown (t : Byte) : Byte := if t = 0 then 0 else t - 1

/-- A timer after the gate: a timer at 0 stays at 0 whether or not the tick is due. -/
def timerNext (due : Bool) (t : Byte) : Byte := if t = 0 then 0 else if due then tickDown t else t

/-- `now - t_ref >= TIMER_PERIOD` (R121). -/
def State.tickDue (s : State) (now : Time) : Bool := s.params.periodElapsed (now - s.tRef)

/-- The timer gate at time `now` (R121). The sample of `now` is one environment input drawn (R9). -/
def State.timerGate (s : State) (now : Time) : State :=
  { s with
    DT := timerNext (s.tickDue now) s.DT
    ST := timerNext (s.tickDue now) s.ST
    tRef := if s.tickDue now then now else s.tRef
    draws := s.draws + 1 }

/-- The `now` the next `cycle` samples: a free time not before `t_ref` (R9, R121; assumption 2). -/
def State.sampleNow (s : State) : Time := s.tRef + Config.elapsed s.draws

/-- The `rand_byte` input of the executing instruction: a free byte (R9, R221; assumption 1). -/
def State.randByte (s : State) : Byte := Config.randByte s.draws

/-- The free value has been used; the next draw is a fresh one. -/
def State.drawn (s : State) : State := s.withDraws (s.draws + 1)

/-! Display (R27, R201). -/

/-- `disp[r][c]`; off outside the grid. -/
def Display.pixel (d : Display) (r c : Nat) : Bool :=
  if h : r < 32 then d[r].getMsbD c else false

/-- One sprite row with its left edge at column `x0`: bit 7 of the byte at column `x0`, bit 0 at column `x0 + 7`;
the pixels past column 63 are shifted out, which is the clipping of R201 (b). -/
def spriteRow (b : Byte) (x0 : Nat) : BitVec 64 := (b.setWidth 64 <<< 56) >>> x0

/-- XOR the sprite rows onto the display from row `py` down; a row past 31 is dropped (R201). -/
def Display.toggle (d : Display) (x0 : Nat) : Nat → List Byte → Display
  | _, [] => d
  | py, b :: bs =>
    if h : py < 32 then Display.toggle (d.set py (d[py] ^^^ spriteRow b x0)) x0 (py + 1) bs
    else Display.toggle d x0 (py + 1) bs

/-- Whether a 1 bit of the sprite falls on a lit pixel (R201). Each pixel is targeted at most once (R201 (g)), so
the pixels tested are those of the display before the draw. -/
def Display.collides (d : Display) (x0 : Nat) : Nat → List Byte → Bool
  | _, [] => false
  | py, b :: bs =>
    if h : py < 32 then (d[py] &&& spriteRow b x0) != 0 || Display.collides d x0 (py + 1) bs
    else Display.collides d x0 (py + 1) bs

/-- The display with every pixel off (R200). -/
def blankDisplay : Display := Vector.replicate 32 0

/-! Keys (R29, R215 to R217). -/

/-- `keys[k]` for a key index held in a register; an index above 15 faults (R215). -/
def State.keyState (s : State) (k : Byte) : Except Fault Bool :=
  if h : k.toNat < 16 then .ok s.keys[k.toNat] else .error (.keyIndex k)

/-- The least pressed key, if any key is pressed (R217). -/
def State.lowestKey (s : State) : Option Nat := s.keys.toList.findIdx? (fun pressed => pressed)

end Sys2Proof.Machine
end

