-- ==== Sys2Proof/Machine/Operands.lean ====
section
/-! DEFINITION. The operand forms: immediates, addresses formed from `I`, the font address, the sprite origin, the
decimal digits (spec/30_encoding.md R93, spec/43_index_memory.md R182, R183, R186). -/

namespace Sys2Proof.Machine

/-- `zext_16(nnn)` (R93). -/
def addrImm (nnn : Addr12) : Word := nnn.setWidth 16

/-- `zext_16(V[x])` (R147, R181). -/
def regWide (b : Byte) : Word := b.setWidth 16

/-- The address of the first byte of a memory operation: `I` as a natural number, neither wrapped nor masked; byte `k`
is at this plus `k` (R186). -/
def State.base (s : State) : Nat := s.I.toNat

/-- `FONT_BASE + 5 * (v & 0x0F)` (R182). -/
def fontAddr (p : Params) (v : Byte) : Word := BitVec.ofNat 16 (p.fontBase.val + 5 * (v &&& 0x0F).toNat)

/-- The hundreds, tens and ones of a byte, each in a byte of its own (R183). -/
def decimalDigits (v : Byte) : List Byte :=
  [BitVec.ofNat 8 (v.toNat / 100), BitVec.ofNat 8 (v.toNat / 10 % 10), BitVec.ofNat 8 (v.toNat % 10)]

/-- `V[x] mod 64`: the column of the sprite's left edge (R201). -/
def originColumn (v : Byte) : Nat := v.toNat % 64

/-- `V[y] mod 32`: the row of the sprite's top edge (R201). -/
def originRow (v : Byte) : Nat := v.toNat % 32

end Sys2Proof.Machine
end

