-- ==== Sys2Proof/Machine/Alu.lean ====
section
/-! DEFINITION. Load, add and the 8-bit ALU (spec/42_alu.md). Sources are read first, then the result is written to
Vx, then the flag to VF, so with x = F VF ends as the flag (R172). -/

namespace Sys2Proof.Machine

/-- The write order of the flag-writing instructions: the result, then the flag (R172). -/
def State.setRegFlag (s : State) (x : Nibble) (result flag : Byte) : State := (s.setReg x result).setVF flag

/-- `6xnn` load Vx,nn (R160). -/
def execLoadImm (x : Nibble) (nn : Byte) (s : State) : Result := .next (s.setReg x nn)

/-- `7xnn` add Vx,nn: no flag effect (R161). -/
def execAddImm (x : Nibble) (nn : Byte) (s : State) : Result := .next (s.setReg x (addWrap (s.reg x) nn))

/-- `8xy0` load Vx,Vy (R162). -/
def execLoadReg (x y : Nibble) (s : State) : Result := .next (s.setReg x (s.reg y))

/-- `8xy1` or Vx,Vy: no flag effect (R163). -/
def execOrReg (x y : Nibble) (s : State) : Result := .next (s.setReg x (s.reg x ||| s.reg y))

/-- `8xy2` and Vx,Vy: no flag effect (R164). -/
def execAndReg (x y : Nibble) (s : State) : Result := .next (s.setReg x (s.reg x &&& s.reg y))

/-- `8xy3` xor Vx,Vy: no flag effect (R165). -/
def execXorReg (x y : Nibble) (s : State) : Result := .next (s.setReg x (s.reg x ^^^ s.reg y))

/-- `8xy4` add Vx,Vy (R166). -/
def execAddReg (x y : Nibble) (s : State) : Result :=
  .next (s.setRegFlag x (addWrap (s.reg x) (s.reg y)) (carryFlag (s.reg x) (s.reg y)))

/-- `8xy5` sub Vx,Vy (R167). -/
def execSubReg (x y : Nibble) (s : State) : Result :=
  .next (s.setRegFlag x (subWrap (s.reg x) (s.reg y)) (noBorrowFlag (s.reg x) (s.reg y)))

/-- `8xy6` shr Vx; Vy is neither read nor written (R168). -/
def execShr (x : Nibble) (s : State) : Result :=
  .next (s.setRegFlag x (s.reg x >>> 1) (lowBitFlag (s.reg x)))

/-- `8xy7` subn Vx,Vy (R169). -/
def execSubnReg (x y : Nibble) (s : State) : Result :=
  .next (s.setRegFlag x (subWrap (s.reg y) (s.reg x)) (noBorrowFlag (s.reg y) (s.reg x)))

/-- `8xyE` shl Vx; Vy is neither read nor written (R170). -/
def execShl (x : Nibble) (s : State) : Result :=
  .next (s.setRegFlag x (s.reg x <<< 1) (highBitFlag (s.reg x)))

end Sys2Proof.Machine
end

