-- ==== Sys2Proof/Machine/Control.lean ====
section
/-! DEFINITION. The control-flow instructions (spec/41_control_flow.md). `pc` has already been advanced past the
instruction. -/

namespace Sys2Proof.Machine

/-- `00EE` return (R140). -/
def execRet (s : State) : Result :=
  match s.stack with
  | [] => raise (.emptyStackReturn s.instrAddr)
  | v :: rest => .next ((s.withStack rest).withPc v)

/-- `1nnn` jump nnn (R141). -/
def execJump (nnn : Addr12) (s : State) : Result := .next (s.withPc (addrImm nnn))

/-- `2nnn` call nnn (R142). -/
def execCall (nnn : Addr12) (s : State) : Result :=
  if s.stackFull then raise (.stackLimit s.instrAddr)
  else .next ((s.push s.pc).withPc (addrImm nnn))

/-- `3xnn` skip-eq Vx,nn (R143). -/
def execSkipEqImm (x : Nibble) (nn : Byte) (s : State) : Result := .next (s.skipIf (s.reg x == nn))

/-- `4xnn` skip-neq Vx,nn (R144). -/
def execSkipNeqImm (x : Nibble) (nn : Byte) (s : State) : Result := .next (s.skipIf (s.reg x != nn))

/-- `5xy0` skip-eq Vx,Vy (R145). -/
def execSkipEqReg (x y : Nibble) (s : State) : Result := .next (s.skipIf (s.reg x == s.reg y))

/-- `9xy0` skip-neq Vx,Vy, whatever the ignored field (R146, R99). -/
def execSkipNeqReg (x y : Nibble) (s : State) : Result := .next (s.skipIf (s.reg x != s.reg y))

/-- `Bnnn` jump+offset nnn; the offset register is always V0 (R147). -/
def execJumpOffset (nnn : Addr12) (s : State) : Result := .next (s.withPc (addrImm nnn + regWide (s.reg 0x0#4)))

end Sys2Proof.Machine
end

