-- ==== Sys2Proof/Machine/Devices.lean ====
section
/-! DEFINITION. The key, timer and random instructions (spec/45_keys_timers_random.md). -/

namespace Sys2Proof.Machine

/-- `Ex9E` skip-key-pressed Vx (R215). -/
def execSkipKey (x : Nibble) (s : State) : Result :=
  orRaise (s.keyState (s.reg x)) fun pressed => .next (s.skipIf pressed)

/-- `ExA1` skip-key-not-pressed Vx (R216). -/
def execSkipNotKey (x : Nibble) (s : State) : Result :=
  orRaise (s.keyState (s.reg x)) fun pressed => .next (s.skipIf (!pressed))

/-- `Fx0A` wait-key Vx: the lowest pressed key, or instruction replay (R217). -/
def execWaitKey (x : Nibble) (s : State) : Result :=
  match s.lowestKey with
  | some k => .next (s.setReg x (BitVec.ofNat 8 k))
  | none => .next s.rewind

/-- `Fx07` load Vx,delay (R218). -/
def execLoadDelay (x : Nibble) (s : State) : Result := .next (s.setReg x s.DT)

/-- `Fx15` set delay,Vx (R219). -/
def execSetDelay (x : Nibble) (s : State) : Result := .next (s.withDT (s.reg x))

/-- `Fx18` set sound,Vx (R220). -/
def execSetSound (x : Nibble) (s : State) : Result := .next (s.withST (s.reg x))

/-- `Cxnn` for a given value of the input `rand_byte` (R221). -/
def randomWith (rand : Byte) (x : Nibble) (nn : Byte) (s : State) : State := (s.setReg x (rand &&& nn)).drawn

/-- `Cxnn` random Vx,nn: `rand_byte` is a free value (R221; assumption 1). -/
def execRandom (x : Nibble) (nn : Byte) (s : State) : Result := .next (randomWith s.randByte x nn s)

end Sys2Proof.Machine
end

