-- ==== Sys2Proof/Machine/Display.lean ====
section
/-! DEFINITION. The display instructions (spec/44_display.md). -/

namespace Sys2Proof.Machine

/-- `00E0` clear-screen: every pixel off; `dirty` and VF unchanged (R200). -/
def execCls (s : State) : Result := .next (s.withDisp blankDisplay)

/-- Draw sprite rows that have been read, at column `x0` and row `y0`: toggle the pixels, VF := the collision flag,
`dirty` := 1 (R201). -/
def State.drawRows (s : State) (x0 y0 : Nat) (rows : List Byte) : State :=
  ((s.withDisp (Display.toggle s.disp x0 y0 rows)).setVF (collisionFlag (Display.collides s.disp x0 y0 rows))).withDirty true

/-- `Dxyn` draw Vx,Vy,n: the origin is read before VF is written, every row is read even if it is clipped, and `n` = 0
draws nothing (R201 (d), (e), (f)). -/
def execDraw (x y n : Nibble) (s : State) : Result :=
  orRaise (s.memReads s.base n.toNat) fun rows =>
    .next (s.drawRows (originColumn (s.reg x)) (originRow (s.reg y)) rows)

end Sys2Proof.Machine
end

