-- ==== Sys2Proof/Machine/Index.lean ====
section
/-! DEFINITION. The index register and memory instructions (spec/43_index_memory.md). None of `Fx33`, `Fx55`, `Fx65`
modifies `I` (R186). -/

namespace Sys2Proof.Machine

/-- `Annn` set I,nnn (R180). -/
def execSetI (nnn : Addr12) (s : State) : Result := .next (s.withI (addrImm nnn))

/-- `Fx1E` add I,Vx: 16-bit wraparound, no flag (R181). -/
def execAddI (x : Nibble) (s : State) : Result := .next (s.withI (s.I + regWide (s.reg x)))

/-- `Fx29` set I,font(Vx) (R182). -/
def execSetIFont (x : Nibble) (s : State) : Result := .next (s.withI (fontAddr s.params (s.reg x)))

/-- `Fx33` store-BCD Vx (R183). -/
def execStoreBcd (x : Nibble) (s : State) : Result :=
  orRaise (s.memWrites s.base (decimalDigits (s.reg x))) .next

/-- `Fx55` store-regs V0..Vx, inclusive (R184). -/
def execStoreRegs (x : Nibble) (s : State) : Result :=
  orRaise (s.memWrites s.base (s.regsThrough x)) .next

/-- `Fx65` load-regs V0..Vx, inclusive (R185). -/
def execLoadRegs (x : Nibble) (s : State) : Result :=
  orRaise (s.memReads s.base (x.toNat + 1)) fun bytes => .next (s.setRegs bytes)

end Sys2Proof.Machine
end

