-- ==== Sys2Proof/Machine/Cycle.lean ====
section
/-! DEFINITION. The `cycle` step with its input `now` (spec/40_cycle_step.md R120). -/

namespace Sys2Proof.Machine

/-- An unknown opcode: a non-fatal no-op; `pc` stays advanced (R124). Its diagnostic is the output event
`diagnostic` of Machine/Ports.lean. -/
def execUnknown (s : State) : Result := .next s

/-- Decode the fetched word and execute what it selects, `pc` already advanced (R123). -/
def runWord (w : Word) (s : State) : Result :=
  match decodeWord w with
  | .instr i => exec i s
  | .unknown _ => execUnknown s

/-- Fetch, advance `pc`, dispatch (R120 steps 2 to 4). A fault of fetch leaves `pc` where it was (R122). -/
def fetchAndRun (s : State) : Result :=
  orRaise s.fetch fun w => runWord w s.advance

/-- One `cycle` at time `now`: a halted machine does not step (R125); else the timer gate, then fetch and dispatch
(R120). -/
def cycle (now : Time) (s : State) : Result :=
  match s.halted with
  | some _ => .next s
  | none => fetchAndRun (s.timerGate now)

end Sys2Proof.Machine
end

