-- ==== Sys2Proof/Machine/Step.lean ====
section
/-! DEFINITION. The machine's step: one `cycle` at a free time (spec/40_cycle_step.md R120, R121). -/

namespace Sys2Proof.Machine

/-- One `cycle`. What the step adds around `exec`: nothing on a halted machine; else the timer gate first, then `pc`
moved past the instruction's word. -/
def step (s : State) : Host.Outcome State Fault Refusal := cycle s.sampleNow s

/-- `s` with the opcode table's word `w` stored at `pc`, where `step` fetches. -/
def State.withFetchWord (s : State) (nbits w : Nat) : State := s.placeWord (tableWord nbits w)

end Sys2Proof.Machine
end

