-- ==== Sys2Proof/Machine/Ports.lean ====
section
/-! DEFINITION. The host ports (spec/10_state.md R34 to R38), reset from an image (spec/70_reset_and_hazards.md R270
to R272), and the fault latch as the host sees it (spec/60_exceptions.md R242). The host calls them between cycles; a
run of the whole machine is a list of host calls. -/

namespace Sys2Proof

/-- FREE VALUE (assumption 6). Everything but the latch after a fault: the spec gives a faulted state no other content
(R242, U2). -/
opaque Config.afterFault : Machine.State → Machine.State

end Sys2Proof

namespace Sys2Proof.Machine

/-! Reset. -/

/-- The bytes the host supplies at reset; `none` is a stream that cannot be read to its end (R271). -/
abbrev Image := Option (List Byte)

/-- Reset at time `now` (R271): the state, or fault 3 or 2, on which no machine exists (R272, R244). -/
def construct (p : Params) (now : Time) (image : Image) : Result :=
  match image with
  | none => raise .imageReadFailure
  | some bytes =>
    if bytes.length > Config.maxImage then raise (.imageTooLarge bytes.length)
    else .next ((State.initial p now).placeBytes Config.loadAddr bytes)

/-! Inputs and outputs. -/

/-- `set_keys(pressed)`: the whole table is replaced; members outside 0 to 15 have no effect (R35). -/
def State.setKeys (s : State) (pressed : List Int) : State :=
  s.withKeys (Vector.ofFn fun k => decide ((k.val : Int) ∈ pressed))

/-- The snapshot `display()` returns (R36). -/
def State.snapshot (s : State) : Display := s.disp

/-- The state after a `display()` read: `dirty` is cleared, nothing else changes (R36). -/
def State.afterDisplay (s : State) : State := s.withDirty false

/-- `beep()`: whether the sound timer is nonzero (R37). -/
def State.beep (s : State) : Bool := s.ST != 0

/-- The `halted` output (R31, R34). -/
def State.haltedPort (s : State) : Bool × Option Nat := (s.halted.isSome, s.halted.map faultNumber)

/-- The `diag` output: the unknown word the next `cycle` emits, if it emits one (R34, R124). -/
def State.diagnostic (s : State) : Option Word :=
  match s.halted with
  | some _ => none
  | none =>
    match s.fetch with
    | .error _ => none
    | .ok w =>
      match decodeWord w with
      | .instr _ => none
      | .unknown u => some u

/-! The fault latch and runs of the machine under its host. -/

/-- The state after a fault: `halted` holds the code, everything else is a free value (R31, R242). -/
def latchFault (f : Fault) (s : State) : State := (Config.afterFault s).withHalted (some (faultCode f))

/-- A `cycle` as the host sees it: no error is propagated, a fault sets the latch (R126, R242, R244). -/
def cycleLatched (s : State) : State :=
  match step s with
  | .next t => t
  | .fault f => latchFault f s
  | .refused _ => s

/-- What the host may call between cycles, and `cycle` itself (R34, R281). -/
inductive HostCall where
  | cycle
  | setKeys (pressed : List Int)
  | display
  | beep
  deriving DecidableEq, Repr

/-- The effect of one host call on the state; calls are atomic (R38). -/
def hostCall (s : State) : HostCall → State
  | .cycle => cycleLatched s
  | .setKeys pressed => s.setKeys pressed
  | .display => s.afterDisplay
  | .beep => s

/-- The state after the host's calls, in order. -/
def hostRun (s : State) (calls : List HostCall) : State := calls.foldl hostCall s

end Sys2Proof.Machine
end

