-- ==== Sys2Proof/Safety.lean ====
section
/-! DEFINITION. The terms claims are stated in: which pieces of state a step may touch, the program obligations under
which no instruction faults (spec/70_reset_and_hazards.md R275), and the machine's invariants. -/

namespace Sys2Proof.Machine

/-! Frames. -/

/-- The pieces of state (spec/10_state.md R20), and the model's own two. -/
inductive Part where
  | mem | V | pc | I | stack | DT | ST | disp | dirty | keys | tRef | halted | params | draws
  deriving DecidableEq, Repr

/-- A piece of state is the same in `t` as in `s`; memory and registers are compared byte by byte through their
reads. -/
def Unchanged (s t : State) : Part → Prop
  | .mem => ∀ a, t.byteAt a = s.byteAt a
  | .V => ∀ r, t.reg r = s.reg r
  | .pc => t.pc = s.pc
  | .I => t.I = s.I
  | .stack => t.stack = s.stack
  | .DT => t.DT = s.DT
  | .ST => t.ST = s.ST
  | .disp => t.disp = s.disp
  | .dirty => t.dirty = s.dirty
  | .keys => t.keys = s.keys
  | .tRef => t.tRef = s.tRef
  | .halted => t.halted = s.halted
  | .params => t.params = s.params
  | .draws => t.draws = s.draws

/-- Every piece of state outside `touched` is the same in `t` as in `s`. -/
def KeepsAllBut (touched : List Part) (s t : State) : Prop := ∀ p, p ∉ touched → Unchanged s t p

/-- Every register outside `written` is the same in `t` as in `s`. -/
def KeepsRegsBut (written : List Nibble) (s t : State) : Prop := ∀ r, r ∉ written → t.reg r = s.reg r

/-- The pieces of state an instruction may write, beyond fetch's advance of `pc`: the writers R21 to R31 and R68
list. -/
def partsWritten : Instr → List Part
  | .cls => [.disp]
  | .ret => [.stack, .pc]
  | .jump _ => [.pc]
  | .call _ => [.stack, .pc]
  | .skipEqImm _ _ => [.pc]
  | .skipNeqImm _ _ => [.pc]
  | .skipEqReg _ _ => [.pc]
  | .skipNeqReg _ _ _ => [.pc]
  | .loadImm _ _ => [.V]
  | .addImm _ _ => [.V]
  | .loadReg _ _ => [.V]
  | .orReg _ _ => [.V]
  | .andReg _ _ => [.V]
  | .xorReg _ _ => [.V]
  | .addReg _ _ => [.V]
  | .subReg _ _ => [.V]
  | .shr _ _ => [.V]
  | .subnReg _ _ => [.V]
  | .shl _ _ => [.V]
  | .setI _ => [.I]
  | .jumpOffset _ => [.pc]
  | .random _ _ => [.V, .draws]
  | .draw _ _ _ => [.disp, .dirty, .V]
  | .skipKey _ => [.pc]
  | .skipNotKey _ => [.pc]
  | .loadDelay _ => [.V]
  | .waitKey _ => [.V, .pc]
  | .setDelay _ => [.DT]
  | .setSound _ => [.ST]
  | .addI _ => [.I]
  | .setIFont _ => [.I]
  | .storeBcd _ => [.mem]
  | .storeRegs _ => [.mem]
  | .loadRegs _ => [.V]

/-- The registers an instruction may write: its destinations, and VF for the six flag writers (R22). -/
def regsWritten : Instr → List Nibble
  | .loadImm x _ => [x]
  | .addImm x _ => [x]
  | .loadReg x _ => [x]
  | .orReg x _ => [x]
  | .andReg x _ => [x]
  | .xorReg x _ => [x]
  | .addReg x _ => [x, 0xF#4]
  | .subReg x _ => [x, 0xF#4]
  | .shr x _ => [x, 0xF#4]
  | .subnReg x _ => [x, 0xF#4]
  | .shl x _ => [x, 0xF#4]
  | .random x _ => [x]
  | .draw _ _ _ => [0xF#4]
  | .loadDelay x => [x]
  | .waitKey x => [x]
  | .loadRegs x => (List.range (x.toNat + 1)).map (BitVec.ofNat 4)
  | .cls => []
  | .ret => []
  | .jump _ => []
  | .call _ => []
  | .skipEqImm _ _ => []
  | .skipNeqImm _ _ => []
  | .skipEqReg _ _ => []
  | .skipNeqReg _ _ _ => []
  | .setI _ => []
  | .jumpOffset _ => []
  | .skipKey _ => []
  | .skipNotKey _ => []
  | .setDelay _ => []
  | .setSound _ => []
  | .addI _ => []
  | .setIFont _ => []
  | .storeBcd _ => []
  | .storeRegs _ => []

/-! Program obligations. -/

/-- Every byte of a store of `n` bytes at `a` may be written (R63, R275 (b)). -/
def StoreOk (s : State) (a n : Nat) : Prop := ∀ k, k < n → a + k ≤ 0xFFF ∧ (s.params.protectLow = true → 0x200 ≤ a + k)

/-- Every byte of a read of `n` bytes at `a` lies in memory (R62, R275 (c)). -/
def ReadOk (a n : Nat) : Prop := ∀ k, k < n → a + k ≤ 0xFFF

/-- The fault of a store at `a` of which some byte may not be written: that of the first such byte, in ascending order,
the bounds check first (R63, R76, R245). -/
def storeFault (s : State) (a : Nat) : Fault :=
  if a > 0xFFF then .memBounds a
  else if s.params.protectLow = true ∧ a < 0x200 then .reservedWrite a
  else .memBounds 0x1000

/-- The fault of a read at `a` that leaves memory: that of the first byte above 0xFFF (R62, R76). -/
def readFault (a : Nat) : Fault := .memBounds (max a 0x1000)

/-- What the executing instruction asks of the state for it not to fault (R241, R256, R275 (a) to (d)). -/
def Obeys (s : State) : Instr → Prop
  | .ret => s.stack ≠ []
  | .call _ => s.params.stackLimit ≠ some s.stack.length
  | .draw _ _ n => ReadOk s.base n.toNat
  | .skipKey x => (s.reg x).toNat ≤ 15
  | .skipNotKey x => (s.reg x).toNat ≤ 15
  | .storeBcd _ => StoreOk s s.base 3
  | .storeRegs x => StoreOk s s.base (x.toNat + 1)
  | .loadRegs x => ReadOk s.base (x.toNat + 1)
  | .cls => True
  | .jump _ => True
  | .skipEqImm _ _ => True
  | .skipNeqImm _ _ => True
  | .skipEqReg _ _ => True
  | .skipNeqReg _ _ _ => True
  | .loadImm _ _ => True
  | .addImm _ _ => True
  | .loadReg _ _ => True
  | .orReg _ _ => True
  | .andReg _ _ => True
  | .xorReg _ _ => True
  | .addReg _ _ => True
  | .subReg _ _ => True
  | .shr _ _ => True
  | .subnReg _ _ => True
  | .shl _ _ => True
  | .setI _ => True
  | .jumpOffset _ => True
  | .random _ _ => True
  | .loadDelay _ => True
  | .waitKey _ => True
  | .setDelay _ => True
  | .setSound _ => True
  | .addI _ => True
  | .setIFont _ => True

/-! Sprites. -/

/-- Whether a 1 bit of the `n`-row sprite at `I`, drawn with its top left corner at column `x0` and row `y0`, lands on
the pixel at row `r` and column `c`; bit 7 of a row is its leftmost pixel (R201). -/
def spriteBit (s : State) (x0 y0 n r c : Nat) : Bool :=
  decide (y0 ≤ r ∧ r < y0 + n ∧ x0 ≤ c ∧ c < x0 + 8) && (s.byteAt (s.I.toNat + (r - y0))).getLsbD (7 - (c - x0))

/-! Invariants. -/

/-- What every state of a run that has not faulted satisfies: memory in canonical form; `pc` at most 0x10FE, the
largest computed target (R23); every return address at most 0x1000, one that `2nnn` pushed (R140, R142). -/
def State.Inv (s : State) : Prop :=
  Memory.wf s.params s.mem = true ∧ s.pc.toNat ≤ 0x10FE ∧ ∀ v ∈ s.stack, v.toNat ≤ 0x1000

/-- "The program has ended" at `a` (R280): not halted, `pc` = `a`, and the jump `a` at `a`. -/
def State.EndedAt (s : State) (a : Addr12) : Prop :=
  s.halted = none ∧ s.pc.toNat = a.toNat ∧ s.fetch = .ok (encode (.jump a))

/-- The reserved range holds its reset content, the font table among it (R61, R63). -/
def State.ReservedIntact (s : State) : Prop := ∀ a, a < 0x200 → s.byteAt a = s.params.resetByte a

end Sys2Proof.Machine
end

