-- ==== Sys2Proof/Certificates/Slice0/Obligations.lean ====
section
/-! DEFINITION. The statements for the provers. Each docstring names the rule of spec/ it formalises. `exec i s` runs `i`
on a state whose `pc` fetch has already advanced past the instruction (R122). -/

open Sys2Proof Sys2Proof.Machine

/-! ### Encoding (spec/30_encoding.md) -/

/-- Every instruction, with every operand at every value, is what the decoder reads from its word (R91, R95, R107). The opcode
numbers are the spec's decision D1 (assumption 4). -/
def Obligations.DecodeOfEncode : Prop := ∀ i : Instr, decodeWord (encode i) = .instr i

/-- A word that decodes to an instruction is that instruction's word: no bit is dropped (R91, R95). -/
def Obligations.EncodeOfDecode : Prop := ∀ (w : Word) (i : Instr), decodeWord w = .instr i → encode i = w

/-- The unknown words are exactly those of R102's table, and an unknown word is reported as itself. -/
def Obligations.UnknownWordsExactly : Prop :=
  ∀ w : Word,
    (∀ u, decodeWord w = .unknown u → u = w) ∧
    (decodeWord w = .unknown w ↔
      (fieldOp w = 0x0#4 ∧ w ≠ 0x00E0#16 ∧ w ≠ 0x00EE#16) ∨
      (fieldOp w = 0x5#4 ∧ fieldN w ≠ 0x0#4) ∨
      (fieldOp w = 0x8#4 ∧ fieldN w ∈ [0x8#4, 0x9#4, 0xA#4, 0xB#4, 0xC#4, 0xD#4, 0xF#4]) ∨
      (fieldOp w = 0xE#4 ∧ fieldNN w ∉ [0x9E#8, 0xA1#8]) ∨
      (fieldOp w = 0xF#4 ∧
        fieldNN w ∉ [0x07#8, 0x0A#8, 0x15#8, 0x18#8, 0x1E#8, 0x29#8, 0x33#8, 0x55#8, 0x65#8]))

/-- A word selects the instruction whose row satisfies `(w & mask) = match`; at most one row does; if none does, the
word is unknown (R94). -/
def Obligations.DecodeSelectsTheRow : Prop :=
  ∀ w : Word,
    (∀ i, decodeWord w = .instr i → w &&& rowMask i = rowMatch i) ∧
    (∀ i, w &&& rowMask i = rowMatch i →
      ∃ j, decodeWord w = .instr j ∧ rowMatch j = rowMatch i ∧ rowMask j = rowMask i) ∧
    ((∀ i, w &&& rowMask i ≠ rowMatch i) → decodeWord w = .unknown w)

/-- Words written out from the spec's encodings decode to what they stand for: the two words the source shows
(`6A05`, `7A03`) and one of each family. A sanity statement. -/
def Obligations.SpecWordsDecode : Prop :=
  decodeWord 0b0110101000000101#16 = .instr (.loadImm 0xA#4 5#8) ∧
  decodeWord 0b0111101000000011#16 = .instr (.addImm 0xA#4 3#8) ∧
  decodeWord 0b0000000011101110#16 = .instr .ret ∧
  decodeWord 0b1001000100100101#16 = .instr (.skipNeqReg 1#4 2#4 5#4) ∧
  decodeWord 0b1000000100100110#16 = .instr (.shr 1#4 2#4) ∧
  decodeWord 0b1101000100100101#16 = .instr (.draw 1#4 2#4 5#4) ∧
  decodeWord 0b1110001010011110#16 = .instr (.skipKey 2#4) ∧
  decodeWord 0b1111001000110011#16 = .instr (.storeBcd 2#4) ∧
  decodeWord 0b0101000100100001#16 = .unknown 0x5121#16

/-! ### The cycle step (spec/40_cycle_step.md) -/

/-- When the two bytes at `pc` decode to `i`, a cycle at any time `now` is `exec i` after the timer gate, with `pc` moved
past the word; `step` is the cycle at a time not before `t_ref` (R120, R122, R123). -/
def Obligations.StepRunsDecodedInstruction : Prop :=
  ∀ (s : State) (i : Instr), s.halted = none → s.pc.toNat ≤ 0xFFE →
    decodeWord (bigEndian (s.byteAt s.pc.toNat) (s.byteAt (s.pc.toNat + 1))) = .instr i →
    (∀ now, cycle now s = exec i ((s.timerGate now).withPc (s.pc + 2))) ∧
    step s = exec i ((s.timerGate (s.tRef + Config.elapsed s.draws)).withPc (s.pc + 2))

/-- An unknown opcode is a non-fatal no-op: the cycle is the timer gate and `pc <- pc + 2`, and the word is the
diagnostic emitted (R124). -/
def Obligations.UnknownOpcodeIsNoOp : Prop :=
  ∀ (s : State) (w : Word) (now : Time), s.halted = none → s.pc.toNat ≤ 0xFFE →
    decodeWord (bigEndian (s.byteAt s.pc.toNat) (s.byteAt (s.pc.toNat + 1))) = .unknown w →
    s.diagnostic = some w ∧
    ∃ t, cycle now s = .next t ∧ t.pc = s.pc + 2 ∧
      t.DT = (s.timerGate now).DT ∧ t.ST = (s.timerGate now).ST ∧ t.tRef = (s.timerGate now).tRef ∧
      KeepsAllBut [.pc, .DT, .ST, .tRef, .draws] s t

/-- Fetch: within memory it gives the big-endian word at `pc`, whatever `pc`'s parity; above 0xFFE it raises
`MemBoundsFault` with the first failing address (R122, the spec's decisions D7 and D21). -/
def Obligations.FetchReadsOrFaults : Prop :=
  ∀ s : State,
    (s.pc.toNat ≤ 0xFFE →
      ∃ w, s.fetch = .ok w ∧ w.toNat = 256 * (s.byteAt s.pc.toNat).toNat + (s.byteAt (s.pc.toNat + 1)).toNat) ∧
    (0xFFE < s.pc.toNat → s.halted = none → ∀ now,
      cycle now s = .fault (.memBounds (if s.pc.toNat > 0xFFF then s.pc.toNat else 0x1000)))

/-- The timer gate: if at least 1/60 second has passed since `t_ref`, both timers fall by 1, saturating at 0, and
`t_ref` becomes `now`; else nothing changes. However much time passed, one decrement at most (R121, the spec's decision
D16). That the comparison is one of natural numbers in units of 1/`clockHz` second is the model's choice (assumption 3),
and so is that a `now` before `t_ref`, which the spec assumes away, counts as no time passed (assumption 2). -/
def Obligations.TimerGateTicks : Prop :=
  ∀ (s : State) (now : Time),
    (s.params.clockHz ≤ 60 * (now - s.tRef) →
      (s.timerGate now).DT.toNat = s.DT.toNat - 1 ∧ (s.timerGate now).ST.toNat = s.ST.toNat - 1 ∧
      (s.timerGate now).tRef = now) ∧
    (60 * (now - s.tRef) < s.params.clockHz →
      (s.timerGate now).DT = s.DT ∧ (s.timerGate now).ST = s.ST ∧ (s.timerGate now).tRef = s.tRef) ∧
    KeepsAllBut [.DT, .ST, .tRef, .draws] s (s.timerGate now)

/-- A halted machine does not step: a cycle changes nothing (R125, the spec's decision D10). -/
def Obligations.HaltedMachineDoesNotStep : Prop :=
  ∀ (s : State) (c : FaultCode), s.halted = some c → (∀ now, cycle now s = .next s) ∧ step s = .next s

/-! ### Reset (spec/70_reset_and_hazards.md, spec/10_state.md R39) -/

/-- Reset from an image: an image that cannot be read or exceeds 3584 bytes is fatal; else byte `k` of the image is at
0x200 + `k`, the font table is at `FONT_BASE`, every other byte is 0x00, `pc` is 0x200 and everything else is zero,
empty or off (R271, R272, R39; the fill, the stack, the keys and `dirty` are the spec's decisions D6 and D19). -/
def Obligations.ConstructLoadsImage : Prop :=
  ∀ (p : Params) (now : Time),
    construct p now none = .fault .imageReadFailure ∧
    ∀ bytes : List Byte,
      (3584 < bytes.length → construct p now (some bytes) = .fault (.imageTooLarge bytes.length)) ∧
      (bytes.length ≤ 3584 → ∃ t, construct p now (some bytes) = .next t ∧
        (∀ k (h : k < bytes.length), t.byteAt (0x200 + k) = bytes[k]) ∧
        (∀ k (h : k < 80), t.byteAt (p.fontBase.val + k) = p.fontData[k]) ∧
        (∀ a, ¬ (0x200 ≤ a ∧ a < 0x200 + bytes.length) → ¬ (p.fontBase.val ≤ a ∧ a < p.fontBase.val + 80) →
          t.byteAt a = 0x00) ∧
        (∀ r, t.reg r = 0x00) ∧ t.pc = 0x0200 ∧ t.I = 0x0000 ∧ t.stack = [] ∧ t.DT = 0x00 ∧ t.ST = 0x00 ∧
        (∀ r c, Display.pixel t.disp r c = false) ∧ t.dirty = false ∧
        (∀ k (h : k < 16), t.keys[k] = false) ∧ t.tRef = now ∧ t.halted = none ∧ t.params = p)

/-- `State.reset` is the machine right after reset with an empty image and the default parameters, and it satisfies the
invariant (R39, R272; the parameters' defaults are R4's, time 0 is assumption 3's choice). -/
def Obligations.ResetSatisfiesInvariant : Prop :=
  construct defaultParams 0 (some []) = .next State.reset ∧ State.reset.Inv ∧ State.reset.ReservedIntact

/-! ### Whole-machine rules -/

/-- Every cycle, at every time, keeps the invariant: memory in canonical form, `pc` at most 0x10FE, every return address
at most 0x1000 (R23, R140). -/
def Obligations.CycleKeepsInvariant : Prop :=
  ∀ (now : Time) (s t : State), s.Inv → cycle now s = .next t → t.Inv

/-- `step` keeps the invariant. -/
def Obligations.StepKeepsInvariant : Prop := ∀ s t : State, s.Inv → step s = .next t → t.Inv

/-- With `PROTECT_LOW`, no cycle changes a byte below the load address, so the font table stays intact (R61, R63;
`PROTECT_LOW` is the spec's decision D8). -/
def Obligations.ReservedRangeNeverWritten : Prop :=
  ∀ (now : Time) (s t : State), s.params.protectLow = true → cycle now s = .next t →
    (∀ a, a < 0x200 → t.byteAt a = s.byteAt a) ∧ (s.ReservedIntact → t.ReservedIntact)

/-- No cycle changes the key table, the parameters or the fault latch of a machine it steps: `keys` is written only by
`set_keys`, and a cycle that ends in a next state sets no latch (R29, R31, R33). -/
def Obligations.CycleKeepsKeysParamsLatch : Prop :=
  ∀ (now : Time) (s t : State), cycle now s = .next t →
    t.keys = s.keys ∧ t.params = s.params ∧ t.halted = s.halted

/-- An instruction faults exactly when the program breaks an obligation of R275 (a) to (d) (or a configured stack limit
is reached), and never has a third outcome (R8, R241, R256; codes 4 to 7 are the spec's decisions D7, D8,
D9, D20). -/
def Obligations.ExecFaultsExactlyWhen : Prop :=
  ∀ (i : Instr) (s : State),
    (Obeys s i → ∃ t, exec i s = .next t) ∧ (¬ Obeys s i → ∃ f, exec i s = .fault f)

/-- Whatever an instruction's rule does not mention is unchanged: the pieces of state and the registers outside the
instruction's own lists are the same after it; in particular only the six flag writers write VF without naming it
(R22, R23, R24, R68, R123). -/
def Obligations.ExecWritesOnlyItsParts : Prop :=
  ∀ (i : Instr) (s t : State), exec i s = .next t →
    KeepsAllBut (partsWritten i) s t ∧ KeepsRegsBut (regsWritten i) s t

/-- No instruction reads the sound timer, the display-modified flag, the timers' reference time or the fault latch: two
states that differ there run alike and end differing at most there (R26, R28, R30, R32). -/
def Obligations.HiddenStateUnread : Prop :=
  ∀ (i : Instr) (s : State) (b : Byte) (d : Bool) (r : Time) (h : Option FaultCode),
    (∀ f, exec i s = .fault f → exec i ((((s.withST b).withDirty d).withTRef r).withHalted h) = .fault f) ∧
    (∀ t, exec i s = .next t →
      ∃ u, exec i ((((s.withST b).withDirty d).withTRef r).withHalted h) = .next u ∧
        (((u.withST 0).withDirty false).withTRef 0).withHalted none =
          (((t.withST 0).withDirty false).withTRef 0).withHalted none)

/-- `call` then `return` restores the program counter to the address immediately following the call instruction, and
the stack to what it was (R140). -/
def Obligations.CallThenReturnRestores : Prop :=
  ∀ (s t : State) (nnn : Addr12) (later : Word), exec (.call nnn) s = .next t →
    ∃ u, exec .ret (t.withPc later) = .next u ∧ u.pc = s.pc ∧ u.stack = s.stack

/-- An ended program stays ended: every later cycle runs the same jump, and only the timers and their reference time go
on (R280, R141; the idiom is decision D34). -/
def Obligations.SelfJumpStaysEnded : Prop :=
  ∀ (s : State) (a : Addr12) (now : Time), s.EndedAt a →
    ∃ t, cycle now s = .next t ∧ t.EndedAt a ∧ KeepsAllBut [.DT, .ST, .tRef, .draws] s t

/-- A store is seen by the very next fetch: after `Fx55` has written the word that follows it, the next word fetched is
made of the stored bytes (R73, R64, the spec's decision D26). -/
def Obligations.StoreSeenByNextFetch : Prop :=
  ∀ (x : Nibble) (s t : State), 1 ≤ x.toNat → s.I = s.pc → Memory.wf s.params s.mem = true →
    exec (.storeRegs x) s = .next t → t.fetch = .ok (bigEndian (s.reg 0#4) (s.reg 1#4))

/-! ### Host ports (spec/10_state.md R34 to R38) and the fault latch (spec/60_exceptions.md R242) -/

/-- `set_keys` replaces the whole table; members outside 0 to 15 have no effect; the last call decides (R35). -/
def Obligations.SetKeysReplacesTable : Prop :=
  ∀ (s : State) (pressed : List Int),
    (∀ (k : Nat) (h : k < 16), (s.setKeys pressed).keys[k] = true ↔ (k : Int) ∈ pressed) ∧
    KeepsAllBut [.keys] s (s.setKeys pressed) ∧
    ∀ later, (s.setKeys pressed).setKeys later = s.setKeys later

/-- `display()` returns the whole grid, row 0 and column 0 first, and clears `dirty`; nothing else changes (R36,
the spec's decisions D18, D33). -/
def Obligations.DisplayReadClearsDirty : Prop :=
  ∀ s : State,
    (∀ r (h : r < 32) c, c < 64 → s.snapshot[r].getMsbD c = Display.pixel s.disp r c) ∧
    s.afterDisplay.dirty = false ∧ KeepsAllBut [.dirty] s s.afterDisplay

/-- `beep` is 1 exactly while the sound timer is nonzero; reading it changes nothing (R37). -/
def Obligations.BeepWhileSoundNonzero : Prop :=
  ∀ s : State, (s.beep = true ↔ s.ST.toNat ≠ 0) ∧ hostCall s .beep = s

/-- After a fault the latch holds the fault's code, and no later host call of any kind, in any order, changes it (R31,
R242, R248; the latch is the spec's decision D10). -/
def Obligations.FaultLatchesForever : Prop :=
  ∀ (s : State) (f : Fault) (calls : List HostCall), step s = .fault f →
    (hostRun (hostCall s .cycle) calls).halted = some (faultCode f)

/-! ### Control flow (spec/41_control_flow.md) -/

/-- `00EE` (R140). -/
def Obligations.ReturnPopsStack : Prop :=
  decodeWord 0x00EE#16 = .instr .ret ∧
  ∀ s : State,
    (s.stack = [] → exec .ret s = .fault (.emptyStackReturn (s.pc - 2))) ∧
    (∀ v rest, s.stack = v :: rest →
      ∃ t, exec .ret s = .next t ∧ t.pc = v ∧ t.stack = rest ∧ KeepsAllBut [.pc, .stack] s t)

/-- `1nnn` (R141). -/
def Obligations.JumpSetsPc : Prop :=
  ∀ (nnn : Addr12) (s : State),
    decodeWord (0x1000#16 ||| nnn.setWidth 16) = .instr (.jump nnn) ∧
    ∃ t, exec (.jump nnn) s = .next t ∧ t.pc.toNat = nnn.toNat ∧ KeepsAllBut [.pc] s t

/-- `2nnn` (R142; the configured limit is the spec's decision D20). -/
def Obligations.CallPushesReturnAddress : Prop :=
  ∀ (nnn : Addr12) (s : State),
    decodeWord (0x2000#16 ||| nnn.setWidth 16) = .instr (.call nnn) ∧
    (s.params.stackLimit = some s.stack.length → exec (.call nnn) s = .fault (.stackLimit (s.pc - 2))) ∧
    (s.params.stackLimit ≠ some s.stack.length →
      ∃ t, exec (.call nnn) s = .next t ∧ t.stack = s.pc :: s.stack ∧ t.pc.toNat = nnn.toNat ∧
        KeepsAllBut [.pc, .stack] s t)

/-- `3xnn` (R143). -/
def Obligations.SkipIfEqualImmediate : Prop :=
  ∀ (x : Nibble) (nn : Byte) (s : State),
    decodeWord (0x3000#16 ||| (x.setWidth 16 <<< 8) ||| nn.setWidth 16) = .instr (.skipEqImm x nn) ∧
    ∃ t, exec (.skipEqImm x nn) s = .next t ∧ t.pc = (if s.reg x = nn then s.pc + 2 else s.pc) ∧
      KeepsAllBut [.pc] s t

/-- `4xnn` (R144). -/
def Obligations.SkipIfNotEqualImmediate : Prop :=
  ∀ (x : Nibble) (nn : Byte) (s : State),
    decodeWord (0x4000#16 ||| (x.setWidth 16 <<< 8) ||| nn.setWidth 16) = .instr (.skipNeqImm x nn) ∧
    ∃ t, exec (.skipNeqImm x nn) s = .next t ∧ t.pc = (if s.reg x ≠ nn then s.pc + 2 else s.pc) ∧
      KeepsAllBut [.pc] s t

/-- `5xy0` (R145). -/
def Obligations.SkipIfRegistersEqual : Prop :=
  ∀ (x y : Nibble) (s : State),
    decodeWord (0x5000#16 ||| (x.setWidth 16 <<< 8) ||| (y.setWidth 16 <<< 4)) = .instr (.skipEqReg x y) ∧
    ∃ t, exec (.skipEqReg x y) s = .next t ∧ t.pc = (if s.reg x = s.reg y then s.pc + 2 else s.pc) ∧
      KeepsAllBut [.pc] s t

/-- `9xy0`, whatever the low nibble (R146, R99). -/
def Obligations.SkipIfRegistersDiffer : Prop :=
  ∀ (x y n : Nibble) (s : State),
    decodeWord (0x9000#16 ||| (x.setWidth 16 <<< 8) ||| (y.setWidth 16 <<< 4) ||| n.setWidth 16) =
      .instr (.skipNeqReg x y n) ∧
    ∃ t, exec (.skipNeqReg x y n) s = .next t ∧ t.pc = (if s.reg x ≠ s.reg y then s.pc + 2 else s.pc) ∧
      KeepsAllBut [.pc] s t

/-- `Bnnn`: the sum is never reduced (R147). -/
def Obligations.JumpOffsetAddsV0 : Prop :=
  ∀ (nnn : Addr12) (s : State),
    decodeWord (0xB000#16 ||| nnn.setWidth 16) = .instr (.jumpOffset nnn) ∧
    ∃ t, exec (.jumpOffset nnn) s = .next t ∧ t.pc.toNat = nnn.toNat + (s.reg 0#4).toNat ∧ t.pc.toNat ≤ 0x10FE ∧
      KeepsAllBut [.pc] s t

/-! ### Load, add and the ALU (spec/42_alu.md) -/

/-- `6xnn` (R160). -/
def Obligations.LoadImmediate : Prop :=
  ∀ (x : Nibble) (nn : Byte) (s : State),
    decodeWord (0x6000#16 ||| (x.setWidth 16 <<< 8) ||| nn.setWidth 16) = .instr (.loadImm x nn) ∧
    ∃ t, exec (.loadImm x nn) s = .next t ∧ t.reg x = nn ∧ KeepsRegsBut [x] s t ∧ KeepsAllBut [.V] s t

/-- `7xnn`: no flag effect (R161). -/
def Obligations.AddImmediateWraps : Prop :=
  ∀ (x : Nibble) (nn : Byte) (s : State),
    decodeWord (0x7000#16 ||| (x.setWidth 16 <<< 8) ||| nn.setWidth 16) = .instr (.addImm x nn) ∧
    ∃ t, exec (.addImm x nn) s = .next t ∧ (t.reg x).toNat = ((s.reg x).toNat + nn.toNat) % 256 ∧
      KeepsRegsBut [x] s t ∧ KeepsAllBut [.V] s t

/-- `8xy0` (R162). -/
def Obligations.LoadRegister : Prop :=
  ∀ (x y : Nibble) (s : State),
    decodeWord (0x8000#16 ||| (x.setWidth 16 <<< 8) ||| (y.setWidth 16 <<< 4)) = .instr (.loadReg x y) ∧
    ∃ t, exec (.loadReg x y) s = .next t ∧ t.reg x = s.reg y ∧ KeepsRegsBut [x] s t ∧ KeepsAllBut [.V] s t

/-- `8xy1`, `8xy2`, `8xy3`: bit by bit, no flag effect (R163, R164, R165). -/
def Obligations.BitwiseOperations : Prop :=
  ∀ (x y : Nibble) (s : State),
    decodeWord (0x8001#16 ||| (x.setWidth 16 <<< 8) ||| (y.setWidth 16 <<< 4)) = .instr (.orReg x y) ∧
    decodeWord (0x8002#16 ||| (x.setWidth 16 <<< 8) ||| (y.setWidth 16 <<< 4)) = .instr (.andReg x y) ∧
    decodeWord (0x8003#16 ||| (x.setWidth 16 <<< 8) ||| (y.setWidth 16 <<< 4)) = .instr (.xorReg x y) ∧
    (∃ t, exec (.orReg x y) s = .next t ∧
      (∀ b, (t.reg x).getLsbD b = ((s.reg x).getLsbD b || (s.reg y).getLsbD b)) ∧
      KeepsRegsBut [x] s t ∧ KeepsAllBut [.V] s t) ∧
    (∃ t, exec (.andReg x y) s = .next t ∧
      (∀ b, (t.reg x).getLsbD b = ((s.reg x).getLsbD b && (s.reg y).getLsbD b)) ∧
      KeepsRegsBut [x] s t ∧ KeepsAllBut [.V] s t) ∧
    (∃ t, exec (.xorReg x y) s = .next t ∧
      (∀ b, (t.reg x).getLsbD b = ((s.reg x).getLsbD b ^^ (s.reg y).getLsbD b)) ∧
      KeepsRegsBut [x] s t ∧ KeepsAllBut [.V] s t)

/-- `8xy4`: the wrapped sum, VF the carry; with x = F, VF ends as the flag (R166). -/
def Obligations.AddSetsCarry : Prop :=
  ∀ (x y : Nibble) (s : State),
    decodeWord (0x8004#16 ||| (x.setWidth 16 <<< 8) ||| (y.setWidth 16 <<< 4)) = .instr (.addReg x y) ∧
    ∃ t, exec (.addReg x y) s = .next t ∧
      (x ≠ 0xF#4 → (t.reg x).toNat = ((s.reg x).toNat + (s.reg y).toNat) % 256) ∧
      (t.reg 0xF#4).toNat = (if (s.reg x).toNat + (s.reg y).toNat > 255 then 1 else 0) ∧
      KeepsRegsBut [x, 0xF#4] s t ∧ KeepsAllBut [.V] s t

/-- `8xy5`: the wrapped difference, VF = 1 if no borrow; with x = F, VF ends as the flag (R167). -/
def Obligations.SubSetsNoBorrow : Prop :=
  ∀ (x y : Nibble) (s : State),
    decodeWord (0x8005#16 ||| (x.setWidth 16 <<< 8) ||| (y.setWidth 16 <<< 4)) = .instr (.subReg x y) ∧
    ∃ t, exec (.subReg x y) s = .next t ∧
      (x ≠ 0xF#4 → (t.reg x).toNat =
        if (s.reg x).toNat ≥ (s.reg y).toNat then (s.reg x).toNat - (s.reg y).toNat
        else (s.reg x).toNat + 256 - (s.reg y).toNat) ∧
      (t.reg 0xF#4).toNat = (if (s.reg x).toNat ≥ (s.reg y).toNat then 1 else 0) ∧
      KeepsRegsBut [x, 0xF#4] s t ∧ KeepsAllBut [.V] s t

/-- `8xy6`: Vx halved, VF its old bit 0, whatever `y` (R168); with x = F, VF ends as the flag (R172, the spec's
decision D11). -/
def Obligations.ShiftRightInPlace : Prop :=
  ∀ (x y : Nibble) (s : State),
    decodeWord (0x8006#16 ||| (x.setWidth 16 <<< 8) ||| (y.setWidth 16 <<< 4)) = .instr (.shr x y) ∧
    ∃ t, exec (.shr x y) s = .next t ∧
      (x ≠ 0xF#4 → (t.reg x).toNat = (s.reg x).toNat / 2) ∧
      (t.reg 0xF#4).toNat = (s.reg x).toNat % 2 ∧
      KeepsRegsBut [x, 0xF#4] s t ∧ KeepsAllBut [.V] s t

/-- `8xy7`: Vy - Vx wrapped, VF = 1 if Vy >= Vx (R169, the spec's own derivation, N28); with x = F, VF ends as
the flag (R172, decision D11). -/
def Obligations.SubnSetsNoBorrow : Prop :=
  ∀ (x y : Nibble) (s : State),
    decodeWord (0x8007#16 ||| (x.setWidth 16 <<< 8) ||| (y.setWidth 16 <<< 4)) = .instr (.subnReg x y) ∧
    ∃ t, exec (.subnReg x y) s = .next t ∧
      (x ≠ 0xF#4 → (t.reg x).toNat =
        if (s.reg y).toNat ≥ (s.reg x).toNat then (s.reg y).toNat - (s.reg x).toNat
        else (s.reg y).toNat + 256 - (s.reg x).toNat) ∧
      (t.reg 0xF#4).toNat = (if (s.reg y).toNat ≥ (s.reg x).toNat then 1 else 0) ∧
      KeepsRegsBut [x, 0xF#4] s t ∧ KeepsAllBut [.V] s t

/-- `8xyE`: Vx doubled modulo 256, VF its old bit 7, whatever `y` (R170); with x = F, VF ends as the flag
(R172, the spec's decision D11). -/
def Obligations.ShiftLeftInPlace : Prop :=
  ∀ (x y : Nibble) (s : State),
    decodeWord (0x800E#16 ||| (x.setWidth 16 <<< 8) ||| (y.setWidth 16 <<< 4)) = .instr (.shl x y) ∧
    ∃ t, exec (.shl x y) s = .next t ∧
      (x ≠ 0xF#4 → (t.reg x).toNat = 2 * (s.reg x).toNat % 256) ∧
      (t.reg 0xF#4).toNat = (if 128 ≤ (s.reg x).toNat then 1 else 0) ∧
      KeepsRegsBut [x, 0xF#4] s t ∧ KeepsAllBut [.V] s t

/-! ### Index register and memory (spec/43_index_memory.md) -/

/-- `Annn` (R180). -/
def Obligations.SetIndex : Prop :=
  ∀ (nnn : Addr12) (s : State),
    decodeWord (0xA000#16 ||| nnn.setWidth 16) = .instr (.setI nnn) ∧
    ∃ t, exec (.setI nnn) s = .next t ∧ t.I.toNat = nnn.toNat ∧ KeepsAllBut [.I] s t

/-- `Fx1E`: 16-bit wraparound, no flag (R181). -/
def Obligations.AddToIndexWraps : Prop :=
  ∀ (x : Nibble) (s : State),
    decodeWord (0xF01E#16 ||| (x.setWidth 16 <<< 8)) = .instr (.addI x) ∧
    ∃ t, exec (.addI x) s = .next t ∧ t.I.toNat = (s.I.toNat + (s.reg x).toNat) % 65536 ∧ KeepsAllBut [.I] s t

/-- `Fx29`: for every `FONT_BASE`, the address of the glyph of Vx's low nibble, below 0x200 (R182, the spec's decision D4). -/
def Obligations.SetIndexToGlyph : Prop :=
  ∀ (x : Nibble) (s : State),
    decodeWord (0xF029#16 ||| (x.setWidth 16 <<< 8)) = .instr (.setIFont x) ∧
    ∃ t, exec (.setIFont x) s = .next t ∧
      t.I.toNat = s.params.fontBase.val + 5 * ((s.reg x).toNat % 16) ∧ t.I.toNat < 0x200 ∧ KeepsAllBut [.I] s t

/-- `Fx33`: the three decimal digits at I, I+1, I+2, no other byte; a byte that may not be written faults (R183). The
bytes read back as written when memory is in canonical form, which every cycle keeps. -/
def Obligations.StoreDecimalDigits : Prop :=
  ∀ (x : Nibble) (s : State),
    decodeWord (0xF033#16 ||| (x.setWidth 16 <<< 8)) = .instr (.storeBcd x) ∧
    (StoreOk s s.I.toNat 3 → ∃ t, exec (.storeBcd x) s = .next t ∧
      (Memory.wf s.params s.mem = true →
        (t.byteAt s.I.toNat).toNat = (s.reg x).toNat / 100 ∧
        (t.byteAt (s.I.toNat + 1)).toNat = (s.reg x).toNat / 10 % 10 ∧
        (t.byteAt (s.I.toNat + 2)).toNat = (s.reg x).toNat % 10) ∧
      (∀ a, ¬ (s.I.toNat ≤ a ∧ a < s.I.toNat + 3) → t.byteAt a = s.byteAt a) ∧
      KeepsAllBut [.mem] s t) ∧
    (¬ StoreOk s s.I.toNat 3 → exec (.storeBcd x) s = .fault (storeFault s s.I.toNat))

/-- `Fx55`: V0 to Vx, inclusive, at I and up, no other byte, I unchanged; a byte that may not be written faults
(R184). -/
def Obligations.StoreRegisterRange : Prop :=
  ∀ (x : Nibble) (s : State),
    decodeWord (0xF055#16 ||| (x.setWidth 16 <<< 8)) = .instr (.storeRegs x) ∧
    (StoreOk s s.I.toNat (x.toNat + 1) → ∃ t, exec (.storeRegs x) s = .next t ∧
      (Memory.wf s.params s.mem = true →
        ∀ r : Nibble, r.toNat ≤ x.toNat → t.byteAt (s.I.toNat + r.toNat) = s.reg r) ∧
      (∀ a, ¬ (s.I.toNat ≤ a ∧ a < s.I.toNat + x.toNat + 1) → t.byteAt a = s.byteAt a) ∧
      KeepsAllBut [.mem] s t) ∧
    (¬ StoreOk s s.I.toNat (x.toNat + 1) → exec (.storeRegs x) s = .fault (storeFault s s.I.toNat))

/-- `Fx65`: V0 to Vx, inclusive, from I and up; registers above Vx, memory and I unchanged; an address above 0xFFF
faults, the first one recorded (R185). -/
def Obligations.LoadRegisterRange : Prop :=
  ∀ (x : Nibble) (s : State),
    decodeWord (0xF065#16 ||| (x.setWidth 16 <<< 8)) = .instr (.loadRegs x) ∧
    (ReadOk s.I.toNat (x.toNat + 1) → ∃ t, exec (.loadRegs x) s = .next t ∧
      (∀ r : Nibble, t.reg r = if r.toNat ≤ x.toNat then s.byteAt (s.I.toNat + r.toNat) else s.reg r) ∧
      KeepsAllBut [.V] s t) ∧
    (¬ ReadOk s.I.toNat (x.toNat + 1) → exec (.loadRegs x) s = .fault (readFault s.I.toNat))

/-! ### Display (spec/44_display.md) -/

/-- `00E0`: every pixel off; VF and `dirty` unchanged (R200, decision D18). -/
def Obligations.ClearScreen : Prop :=
  decodeWord 0x00E0#16 = .instr .cls ∧
  ∀ s : State, ∃ t, exec .cls s = .next t ∧ (∀ r c, Display.pixel t.disp r c = false) ∧ KeepsAllBut [.disp] s t

/-- `Dxyn`, pixel by pixel: a pixel is toggled exactly when a 1 bit of the sprite lands on it, the origin wrapped and
the rest clipped; VF is 1 exactly when one landed on a lit pixel; `dirty` is set; every row is read, so a row outside
memory faults (R201; the spec's decisions D12, D13, D14, D33). -/
def Obligations.DrawTogglesSpritePixels : Prop :=
  ∀ (x y n : Nibble) (s : State),
    decodeWord (0xD000#16 ||| (x.setWidth 16 <<< 8) ||| (y.setWidth 16 <<< 4) ||| n.setWidth 16) =
      .instr (.draw x y n) ∧
    (ReadOk s.I.toNat n.toNat → ∃ t, exec (.draw x y n) s = .next t ∧
      (∀ r c, r < 32 → c < 64 →
        Display.pixel t.disp r c =
          (Display.pixel s.disp r c ^^ spriteBit s ((s.reg x).toNat % 64) ((s.reg y).toNat % 32) n.toNat r c)) ∧
      ((t.reg 0xF#4 = 1 ∧ ∃ r c, r < 32 ∧ c < 64 ∧ Display.pixel s.disp r c = true ∧
          spriteBit s ((s.reg x).toNat % 64) ((s.reg y).toNat % 32) n.toNat r c = true) ∨
       (t.reg 0xF#4 = 0 ∧ ∀ r c, r < 32 → c < 64 → Display.pixel s.disp r c = true →
          spriteBit s ((s.reg x).toNat % 64) ((s.reg y).toNat % 32) n.toNat r c = false)) ∧
      t.dirty = true ∧ KeepsRegsBut [0xF#4] s t ∧ KeepsAllBut [.disp, .dirty, .V] s t) ∧
    (¬ ReadOk s.I.toNat n.toNat → exec (.draw x y n) s = .fault (readFault s.I.toNat))

/-- Drawing the same sprite twice restores the display; on a clear display, with a 1 bit that lands in bounds, the
first draw gives VF = 0 and the second VF = 1 (R202). -/
def Obligations.DrawTwiceRestores : Prop :=
  ∀ (x y n : Nibble) (s t : State), x ≠ 0xF#4 → y ≠ 0xF#4 → exec (.draw x y n) s = .next t →
    ∃ u, exec (.draw x y n) t = .next u ∧ u.disp = s.disp ∧
      (s.disp = blankDisplay →
        (∃ r c, r < 32 ∧ c < 64 ∧
          spriteBit s ((s.reg x).toNat % 64) ((s.reg y).toNat % 32) n.toNat r c = true) →
        t.reg 0xF#4 = 0 ∧ u.reg 0xF#4 = 1)

/-! ### Keys, timers, random (spec/45_keys_timers_random.md) -/

/-- `Ex9E` and `ExA1`: the key whose index is the value of Vx decides the skip; a value above 15 faults (R215, R216, the
spec's decision D9). -/
def Obligations.KeySkips : Prop :=
  ∀ (x : Nibble) (s : State),
    decodeWord (0xE09E#16 ||| (x.setWidth 16 <<< 8)) = .instr (.skipKey x) ∧
    decodeWord (0xE0A1#16 ||| (x.setWidth 16 <<< 8)) = .instr (.skipNotKey x) ∧
    (∀ h : (s.reg x).toNat < 16,
      (∃ t, exec (.skipKey x) s = .next t ∧
        t.pc = (if s.keys[(s.reg x).toNat] = true then s.pc + 2 else s.pc) ∧ KeepsAllBut [.pc] s t) ∧
      (∃ t, exec (.skipNotKey x) s = .next t ∧
        t.pc = (if s.keys[(s.reg x).toNat] = false then s.pc + 2 else s.pc) ∧ KeepsAllBut [.pc] s t)) ∧
    (15 < (s.reg x).toNat →
      exec (.skipKey x) s = .fault (.keyIndex (s.reg x)) ∧ exec (.skipNotKey x) s = .fault (.keyIndex (s.reg x)))

/-- `Fx0A`: with a key pressed, Vx := the least pressed index; with none, `pc` goes back to the instruction and nothing
else changes (R217; a test of level, decision D28). -/
def Obligations.WaitKeyTakesLowestOrReplays : Prop :=
  ∀ (x : Nibble) (s : State),
    decodeWord (0xF00A#16 ||| (x.setWidth 16 <<< 8)) = .instr (.waitKey x) ∧
    (∀ k (h : k < 16), s.keys[k] = true → (∀ j (hj : j < k), s.keys[j] = false) →
      ∃ t, exec (.waitKey x) s = .next t ∧ (t.reg x).toNat = k ∧ KeepsRegsBut [x] s t ∧ KeepsAllBut [.V] s t) ∧
    ((∀ k (h : k < 16), s.keys[k] = false) →
      ∃ t, exec (.waitKey x) s = .next t ∧ t.pc = s.pc - 2 ∧ KeepsAllBut [.pc] s t)

/-- `Fx07` (R218). -/
def Obligations.LoadDelayTimer : Prop :=
  ∀ (x : Nibble) (s : State),
    decodeWord (0xF007#16 ||| (x.setWidth 16 <<< 8)) = .instr (.loadDelay x) ∧
    ∃ t, exec (.loadDelay x) s = .next t ∧ t.reg x = s.DT ∧ KeepsRegsBut [x] s t ∧ KeepsAllBut [.V] s t

/-- `Fx15` and `Fx18` (R219, R220). -/
def Obligations.SetTimers : Prop :=
  ∀ (x : Nibble) (s : State),
    decodeWord (0xF015#16 ||| (x.setWidth 16 <<< 8)) = .instr (.setDelay x) ∧
    decodeWord (0xF018#16 ||| (x.setWidth 16 <<< 8)) = .instr (.setSound x) ∧
    (∃ t, exec (.setDelay x) s = .next t ∧ t.DT = s.reg x ∧ KeepsAllBut [.DT] s t) ∧
    (∃ t, exec (.setSound x) s = .next t ∧ t.ST = s.reg x ∧ (t.beep = true ↔ s.reg x ≠ 0) ∧ KeepsAllBut [.ST] s t)

/-- The tick comes before the instruction: in a cycle, `Fx07` reads the delay timer after the gate, and the value `Fx15`
writes is not decremented in the same cycle (R120, R218, R219). When a tick is due is decided in the model's clock units
(assumptions 2 and 3). -/
def Obligations.TickBeforeExecute : Prop :=
  ∀ (x : Nibble) (s : State) (now : Time), s.halted = none → s.pc.toNat ≤ 0xFFE →
    (decodeWord (bigEndian (s.byteAt s.pc.toNat) (s.byteAt (s.pc.toNat + 1))) = .instr (.loadDelay x) →
      ∃ t, cycle now s = .next t ∧
        (t.reg x).toNat = if s.params.clockHz ≤ 60 * (now - s.tRef) then s.DT.toNat - 1 else s.DT.toNat) ∧
    (decodeWord (bigEndian (s.byteAt s.pc.toNat) (s.byteAt (s.pc.toNat + 1))) = .instr (.setDelay x) →
      ∃ t, cycle now s = .next t ∧ t.DT = s.reg x)

/-- `Cxnn`: Vx := the next free byte & nn, whatever byte it is, and the draw is used up (R221; a free value, decision D17 and
assumption 1). -/
def Obligations.RandomIsMaskedDraw : Prop :=
  ∀ (x : Nibble) (nn : Byte) (s : State),
    decodeWord (0xC000#16 ||| (x.setWidth 16 <<< 8) ||| nn.setWidth 16) = .instr (.random x nn) ∧
    (∃ t, exec (.random x nn) s = .next t ∧ t.reg x = Config.randByte s.draws &&& nn ∧ t.reg x &&& ~~~nn = 0 ∧
      t.draws = s.draws + 1 ∧ KeepsRegsBut [x] s t ∧ KeepsAllBut [.V, .draws] s t) ∧
    ∀ rand : Byte, (randomWith rand x nn s).reg x = rand &&& nn
end

