-- ==== Sys2Proof/Laws/Decode.lean ====
section
/-! SUPPORT. The fields of each word format: what the decoder reads from a word the encoder built. `m` is a row's
`match`; the hypothesis says that it has no bit in an operand field, and `simp (disch := decide)` discharges it. -/

namespace Sys2Proof

variable {m : Word}

theorem fieldOp_wordNNN (nnn : Addr12) : fieldOp (wordNNN m nnn) = fieldOp m := by
  ext i hi; interval_cases i <;> simp [fieldOp, wordNNN]
theorem fieldNNN_wordNNN (h : m &&& 0xF000#16 = m) (nnn : Addr12) : fieldNNN (wordNNN m nnn) = nnn := by
  rw [← h]; ext i hi; interval_cases i <;> simp [fieldNNN, wordNNN]

theorem fieldOp_wordXNN (x : Nibble) (nn : Byte) : fieldOp (wordXNN m x nn) = fieldOp m := by
  ext i hi; interval_cases i <;> simp [fieldOp, wordXNN]
theorem fieldX_wordXNN (h : m &&& 0xF000#16 = m) (x : Nibble) (nn : Byte) : fieldX (wordXNN m x nn) = x := by
  rw [← h]; ext i hi; interval_cases i <;> simp [fieldX, wordXNN]
theorem fieldNN_wordXNN (h : m &&& 0xF000#16 = m) (x : Nibble) (nn : Byte) : fieldNN (wordXNN m x nn) = nn := by
  rw [← h]; ext i hi; interval_cases i <;> simp [fieldNN, wordXNN]

theorem fieldOp_wordXY (x y : Nibble) : fieldOp (wordXY m x y) = fieldOp m := by
  ext i hi; interval_cases i <;> simp [fieldOp, wordXY]
theorem fieldN_wordXY (x y : Nibble) : fieldN (wordXY m x y) = fieldN m := by
  ext i hi; interval_cases i <;> simp [fieldN, wordXY]
theorem fieldX_wordXY (h : m &&& 0xF00F#16 = m) (x y : Nibble) : fieldX (wordXY m x y) = x := by
  rw [← h]; ext i hi; interval_cases i <;> simp [fieldX, wordXY]
theorem fieldY_wordXY (h : m &&& 0xF00F#16 = m) (x y : Nibble) : fieldY (wordXY m x y) = y := by
  rw [← h]; ext i hi; interval_cases i <;> simp [fieldY, wordXY]

theorem fieldOp_wordXYN (x y n : Nibble) : fieldOp (wordXYN m x y n) = fieldOp m := by
  ext i hi; interval_cases i <;> simp [fieldOp, wordXY, wordXYN]
theorem fieldX_wordXYN (h : m &&& 0xF000#16 = m) (x y n : Nibble) : fieldX (wordXYN m x y n) = x := by
  rw [← h]; ext i hi; interval_cases i <;> simp [fieldX, wordXY, wordXYN]
theorem fieldY_wordXYN (h : m &&& 0xF000#16 = m) (x y n : Nibble) : fieldY (wordXYN m x y n) = y := by
  rw [← h]; ext i hi; interval_cases i <;> simp [fieldY, wordXY, wordXYN]
theorem fieldN_wordXYN (h : m &&& 0xF000#16 = m) (x y n : Nibble) : fieldN (wordXYN m x y n) = n := by
  rw [← h]; ext i hi; interval_cases i <;> simp [fieldN, wordXY, wordXYN]

theorem fieldOp_wordX (x : Nibble) : fieldOp (wordX m x) = fieldOp m := by
  ext i hi; interval_cases i <;> simp [fieldOp, wordX]
theorem fieldNN_wordX (x : Nibble) : fieldNN (wordX m x) = fieldNN m := by
  ext i hi; interval_cases i <;> simp [fieldNN, wordX]
theorem fieldX_wordX (h : m &&& 0xF0FF#16 = m) (x : Nibble) : fieldX (wordX m x) = x := by
  rw [← h]; ext i hi; interval_cases i <;> simp [fieldX, wordX]

/-! A word is its fields. -/

theorem word_eq_op_nnn (w : Word) : w = ((fieldOp w).setWidth 16 <<< 12) ||| (fieldNNN w).setWidth 16 := by
  ext i hi; interval_cases i <;> simp [fieldOp, fieldNNN]
theorem word_eq_op_x_nn (w : Word) :
    w = ((fieldOp w).setWidth 16 <<< 12) ||| ((fieldX w).setWidth 16 <<< 8) ||| (fieldNN w).setWidth 16 := by
  ext i hi; interval_cases i <;> simp [fieldOp, fieldX, fieldNN]
theorem word_eq_op_x_y_n (w : Word) :
    w = ((fieldOp w).setWidth 16 <<< 12) ||| ((fieldX w).setWidth 16 <<< 8) ||| ((fieldY w).setWidth 16 <<< 4) |||
      (fieldN w).setWidth 16 := by
  ext i hi; interval_cases i <;> simp [fieldOp, fieldX, fieldY, fieldN]

/-- Splitting a word into bytes and joining them gives it back (R64). -/
@[simp] theorem bigEndian_bytes (w : Word) : bigEndian (highByte w) (lowByte w) = w := by
  ext i hi; interval_cases i <;> simp [bigEndian, highByte, lowByte]

/-! What the decoder can do, said once: the sixteen families. -/

theorem nibble_of_toNat {n : Nibble} {c : Nat} (h : n.toNat = c) : n = BitVec.ofNat 4 c := by
  apply BitVec.eq_of_toNat_eq; have := n.isLt; simp [h]; omega

/-- The first nibble and what the decoder does with it (R94). -/
theorem decodeWord_cases (w : Word) :
  (fieldOp w = 0x0#4 ∧ decodeWord w = decodeFamily0 w) ∨
  (fieldOp w = 0x1#4 ∧ decodeWord w = .instr (.jump (fieldNNN w))) ∨
  (fieldOp w = 0x2#4 ∧ decodeWord w = .instr (.call (fieldNNN w))) ∨
  (fieldOp w = 0x3#4 ∧ decodeWord w = .instr (.skipEqImm (fieldX w) (fieldNN w))) ∨
  (fieldOp w = 0x4#4 ∧ decodeWord w = .instr (.skipNeqImm (fieldX w) (fieldNN w))) ∨
  (fieldOp w = 0x5#4 ∧ decodeWord w = decodeFamily5 w) ∨
  (fieldOp w = 0x6#4 ∧ decodeWord w = .instr (.loadImm (fieldX w) (fieldNN w))) ∨
  (fieldOp w = 0x7#4 ∧ decodeWord w = .instr (.addImm (fieldX w) (fieldNN w))) ∨
  (fieldOp w = 0x8#4 ∧ decodeWord w = decodeFamily8 w) ∨
  (fieldOp w = 0x9#4 ∧ decodeWord w = .instr (.skipNeqReg (fieldX w) (fieldY w) (fieldN w))) ∨
  (fieldOp w = 0xA#4 ∧ decodeWord w = .instr (.setI (fieldNNN w))) ∨
  (fieldOp w = 0xB#4 ∧ decodeWord w = .instr (.jumpOffset (fieldNNN w))) ∨
  (fieldOp w = 0xC#4 ∧ decodeWord w = .instr (.random (fieldX w) (fieldNN w))) ∨
  (fieldOp w = 0xD#4 ∧ decodeWord w = .instr (.draw (fieldX w) (fieldY w) (fieldN w))) ∨
  (fieldOp w = 0xE#4 ∧ decodeWord w = decodeFamilyE w) ∨
  (fieldOp w = 0xF#4 ∧ decodeWord w = decodeFamilyF w) := by
  have : ∀ c : Nibble, c = 0 ∨ c = 1 ∨ c = 2 ∨ c = 3 ∨ c = 4 ∨ c = 5 ∨ c = 6 ∨ c = 7 ∨ c = 8 ∨ c = 9 ∨ c = 10 ∨ c = 11 ∨ c = 12 ∨ c = 13 ∨ c = 14 ∨ c = 15 := by decide
  rcases this (fieldOp w) with h|h|h|h|h|h|h|h|h|h|h|h|h|h|h|h <;> simp [decodeWord, h]

end Sys2Proof
end

