-- ==== Sys2Proof/Laws/State.lean ====
section
/-! SUPPORT. What each update of State does to each field and to each read of a register or a byte, so that no proof
unfolds a record update. -/

namespace Sys2Proof.Machine

variable (s : State)

@[simp] theorem withMem_mem (m : Memory) : (s.withMem m).mem = m := rfl
@[simp] theorem withMem_V (m : Memory) : (s.withMem m).V = s.V := rfl
@[simp] theorem withMem_pc (m : Memory) : (s.withMem m).pc = s.pc := rfl
@[simp] theorem withMem_I (m : Memory) : (s.withMem m).I = s.I := rfl
@[simp] theorem withMem_stack (m : Memory) : (s.withMem m).stack = s.stack := rfl
@[simp] theorem withMem_DT (m : Memory) : (s.withMem m).DT = s.DT := rfl
@[simp] theorem withMem_ST (m : Memory) : (s.withMem m).ST = s.ST := rfl
@[simp] theorem withMem_disp (m : Memory) : (s.withMem m).disp = s.disp := rfl
@[simp] theorem withMem_dirty (m : Memory) : (s.withMem m).dirty = s.dirty := rfl
@[simp] theorem withMem_keys (m : Memory) : (s.withMem m).keys = s.keys := rfl
@[simp] theorem withMem_tRef (m : Memory) : (s.withMem m).tRef = s.tRef := rfl
@[simp] theorem withMem_halted (m : Memory) : (s.withMem m).halted = s.halted := rfl
@[simp] theorem withMem_params (m : Memory) : (s.withMem m).params = s.params := rfl
@[simp] theorem withMem_draws (m : Memory) : (s.withMem m).draws = s.draws := rfl
@[simp] theorem withMem_reg (m : Memory) (r : Nibble) : (s.withMem m).reg r = s.reg r := rfl

@[simp] theorem withV_mem (v : Vector Byte 16) : (s.withV v).mem = s.mem := rfl
@[simp] theorem withV_V (v : Vector Byte 16) : (s.withV v).V = v := rfl
@[simp] theorem withV_pc (v : Vector Byte 16) : (s.withV v).pc = s.pc := rfl
@[simp] theorem withV_I (v : Vector Byte 16) : (s.withV v).I = s.I := rfl
@[simp] theorem withV_stack (v : Vector Byte 16) : (s.withV v).stack = s.stack := rfl
@[simp] theorem withV_DT (v : Vector Byte 16) : (s.withV v).DT = s.DT := rfl
@[simp] theorem withV_ST (v : Vector Byte 16) : (s.withV v).ST = s.ST := rfl
@[simp] theorem withV_disp (v : Vector Byte 16) : (s.withV v).disp = s.disp := rfl
@[simp] theorem withV_dirty (v : Vector Byte 16) : (s.withV v).dirty = s.dirty := rfl
@[simp] theorem withV_keys (v : Vector Byte 16) : (s.withV v).keys = s.keys := rfl
@[simp] theorem withV_tRef (v : Vector Byte 16) : (s.withV v).tRef = s.tRef := rfl
@[simp] theorem withV_halted (v : Vector Byte 16) : (s.withV v).halted = s.halted := rfl
@[simp] theorem withV_params (v : Vector Byte 16) : (s.withV v).params = s.params := rfl
@[simp] theorem withV_draws (v : Vector Byte 16) : (s.withV v).draws = s.draws := rfl
@[simp] theorem withV_byteAt (v : Vector Byte 16) (a : Nat) : (s.withV v).byteAt a = s.byteAt a := rfl

@[simp] theorem withPc_mem (t : Word) : (s.withPc t).mem = s.mem := rfl
@[simp] theorem withPc_V (t : Word) : (s.withPc t).V = s.V := rfl
@[simp] theorem withPc_pc (t : Word) : (s.withPc t).pc = t := rfl
@[simp] theorem withPc_I (t : Word) : (s.withPc t).I = s.I := rfl
@[simp] theorem withPc_stack (t : Word) : (s.withPc t).stack = s.stack := rfl
@[simp] theorem withPc_DT (t : Word) : (s.withPc t).DT = s.DT := rfl
@[simp] theorem withPc_ST (t : Word) : (s.withPc t).ST = s.ST := rfl
@[simp] theorem withPc_disp (t : Word) : (s.withPc t).disp = s.disp := rfl
@[simp] theorem withPc_dirty (t : Word) : (s.withPc t).dirty = s.dirty := rfl
@[simp] theorem withPc_keys (t : Word) : (s.withPc t).keys = s.keys := rfl
@[simp] theorem withPc_tRef (t : Word) : (s.withPc t).tRef = s.tRef := rfl
@[simp] theorem withPc_halted (t : Word) : (s.withPc t).halted = s.halted := rfl
@[simp] theorem withPc_params (t : Word) : (s.withPc t).params = s.params := rfl
@[simp] theorem withPc_draws (t : Word) : (s.withPc t).draws = s.draws := rfl
@[simp] theorem withPc_reg (t : Word) (r : Nibble) : (s.withPc t).reg r = s.reg r := rfl
@[simp] theorem withPc_byteAt (t : Word) (a : Nat) : (s.withPc t).byteAt a = s.byteAt a := rfl

@[simp] theorem withI_mem (t : Word) : (s.withI t).mem = s.mem := rfl
@[simp] theorem withI_V (t : Word) : (s.withI t).V = s.V := rfl
@[simp] theorem withI_pc (t : Word) : (s.withI t).pc = s.pc := rfl
@[simp] theorem withI_I (t : Word) : (s.withI t).I = t := rfl
@[simp] theorem withI_stack (t : Word) : (s.withI t).stack = s.stack := rfl
@[simp] theorem withI_DT (t : Word) : (s.withI t).DT = s.DT := rfl
@[simp] theorem withI_ST (t : Word) : (s.withI t).ST = s.ST := rfl
@[simp] theorem withI_disp (t : Word) : (s.withI t).disp = s.disp := rfl
@[simp] theorem withI_dirty (t : Word) : (s.withI t).dirty = s.dirty := rfl
@[simp] theorem withI_keys (t : Word) : (s.withI t).keys = s.keys := rfl
@[simp] theorem withI_tRef (t : Word) : (s.withI t).tRef = s.tRef := rfl
@[simp] theorem withI_halted (t : Word) : (s.withI t).halted = s.halted := rfl
@[simp] theorem withI_params (t : Word) : (s.withI t).params = s.params := rfl
@[simp] theorem withI_draws (t : Word) : (s.withI t).draws = s.draws := rfl
@[simp] theorem withI_reg (t : Word) (r : Nibble) : (s.withI t).reg r = s.reg r := rfl
@[simp] theorem withI_byteAt (t : Word) (a : Nat) : (s.withI t).byteAt a = s.byteAt a := rfl

@[simp] theorem withStack_mem (k : List Word) : (s.withStack k).mem = s.mem := rfl
@[simp] theorem withStack_V (k : List Word) : (s.withStack k).V = s.V := rfl
@[simp] theorem withStack_pc (k : List Word) : (s.withStack k).pc = s.pc := rfl
@[simp] theorem withStack_I (k : List Word) : (s.withStack k).I = s.I := rfl
@[simp] theorem withStack_stack (k : List Word) : (s.withStack k).stack = k := rfl
@[simp] theorem withStack_DT (k : List Word) : (s.withStack k).DT = s.DT := rfl
@[simp] theorem withStack_ST (k : List Word) : (s.withStack k).ST = s.ST := rfl
@[simp] theorem withStack_disp (k : List Word) : (s.withStack k).disp = s.disp := rfl
@[simp] theorem withStack_dirty (k : List Word) : (s.withStack k).dirty = s.dirty := rfl
@[simp] theorem withStack_keys (k : List Word) : (s.withStack k).keys = s.keys := rfl
@[simp] theorem withStack_tRef (k : List Word) : (s.withStack k).tRef = s.tRef := rfl
@[simp] theorem withStack_halted (k : List Word) : (s.withStack k).halted = s.halted := rfl
@[simp] theorem withStack_params (k : List Word) : (s.withStack k).params = s.params := rfl
@[simp] theorem withStack_draws (k : List Word) : (s.withStack k).draws = s.draws := rfl
@[simp] theorem withStack_reg (k : List Word) (r : Nibble) : (s.withStack k).reg r = s.reg r := rfl
@[simp] theorem withStack_byteAt (k : List Word) (a : Nat) : (s.withStack k).byteAt a = s.byteAt a := rfl

@[simp] theorem withDT_mem (b : Byte) : (s.withDT b).mem = s.mem := rfl
@[simp] theorem withDT_V (b : Byte) : (s.withDT b).V = s.V := rfl
@[simp] theorem withDT_pc (b : Byte) : (s.withDT b).pc = s.pc := rfl
@[simp] theorem withDT_I (b : Byte) : (s.withDT b).I = s.I := rfl
@[simp] theorem withDT_stack (b : Byte) : (s.withDT b).stack = s.stack := rfl
@[simp] theorem withDT_DT (b : Byte) : (s.withDT b).DT = b := rfl
@[simp] theorem withDT_ST (b : Byte) : (s.withDT b).ST = s.ST := rfl
@[simp] theorem withDT_disp (b : Byte) : (s.withDT b).disp = s.disp := rfl
@[simp] theorem withDT_dirty (b : Byte) : (s.withDT b).dirty = s.dirty := rfl
@[simp] theorem withDT_keys (b : Byte) : (s.withDT b).keys = s.keys := rfl
@[simp] theorem withDT_tRef (b : Byte) : (s.withDT b).tRef = s.tRef := rfl
@[simp] theorem withDT_halted (b : Byte) : (s.withDT b).halted = s.halted := rfl
@[simp] theorem withDT_params (b : Byte) : (s.withDT b).params = s.params := rfl
@[simp] theorem withDT_draws (b : Byte) : (s.withDT b).draws = s.draws := rfl
@[simp] theorem withDT_reg (b : Byte) (r : Nibble) : (s.withDT b).reg r = s.reg r := rfl
@[simp] theorem withDT_byteAt (b : Byte) (a : Nat) : (s.withDT b).byteAt a = s.byteAt a := rfl

@[simp] theorem withST_mem (b : Byte) : (s.withST b).mem = s.mem := rfl
@[simp] theorem withST_V (b : Byte) : (s.withST b).V = s.V := rfl
@[simp] theorem withST_pc (b : Byte) : (s.withST b).pc = s.pc := rfl
@[simp] theorem withST_I (b : Byte) : (s.withST b).I = s.I := rfl
@[simp] theorem withST_stack (b : Byte) : (s.withST b).stack = s.stack := rfl
@[simp] theorem withST_DT (b : Byte) : (s.withST b).DT = s.DT := rfl
@[simp] theorem withST_ST (b : Byte) : (s.withST b).ST = b := rfl
@[simp] theorem withST_disp (b : Byte) : (s.withST b).disp = s.disp := rfl
@[simp] theorem withST_dirty (b : Byte) : (s.withST b).dirty = s.dirty := rfl
@[simp] theorem withST_keys (b : Byte) : (s.withST b).keys = s.keys := rfl
@[simp] theorem withST_tRef (b : Byte) : (s.withST b).tRef = s.tRef := rfl
@[simp] theorem withST_halted (b : Byte) : (s.withST b).halted = s.halted := rfl
@[simp] theorem withST_params (b : Byte) : (s.withST b).params = s.params := rfl
@[simp] theorem withST_draws (b : Byte) : (s.withST b).draws = s.draws := rfl
@[simp] theorem withST_reg (b : Byte) (r : Nibble) : (s.withST b).reg r = s.reg r := rfl
@[simp] theorem withST_byteAt (b : Byte) (a : Nat) : (s.withST b).byteAt a = s.byteAt a := rfl

@[simp] theorem withDisp_mem (d : Display) : (s.withDisp d).mem = s.mem := rfl
@[simp] theorem withDisp_V (d : Display) : (s.withDisp d).V = s.V := rfl
@[simp] theorem withDisp_pc (d : Display) : (s.withDisp d).pc = s.pc := rfl
@[simp] theorem withDisp_I (d : Display) : (s.withDisp d).I = s.I := rfl
@[simp] theorem withDisp_stack (d : Display) : (s.withDisp d).stack = s.stack := rfl
@[simp] theorem withDisp_DT (d : Display) : (s.withDisp d).DT = s.DT := rfl
@[simp] theorem withDisp_ST (d : Display) : (s.withDisp d).ST = s.ST := rfl
@[simp] theorem withDisp_disp (d : Display) : (s.withDisp d).disp = d := rfl
@[simp] theorem withDisp_dirty (d : Display) : (s.withDisp d).dirty = s.dirty := rfl
@[simp] theorem withDisp_keys (d : Display) : (s.withDisp d).keys = s.keys := rfl
@[simp] theorem withDisp_tRef (d : Display) : (s.withDisp d).tRef = s.tRef := rfl
@[simp] theorem withDisp_halted (d : Display) : (s.withDisp d).halted = s.halted := rfl
@[simp] theorem withDisp_params (d : Display) : (s.withDisp d).params = s.params := rfl
@[simp] theorem withDisp_draws (d : Display) : (s.withDisp d).draws = s.draws := rfl
@[simp] theorem withDisp_reg (d : Display) (r : Nibble) : (s.withDisp d).reg r = s.reg r := rfl
@[simp] theorem withDisp_byteAt (d : Display) (a : Nat) : (s.withDisp d).byteAt a = s.byteAt a := rfl

@[simp] theorem withDirty_mem (b : Bool) : (s.withDirty b).mem = s.mem := rfl
@[simp] theorem withDirty_V (b : Bool) : (s.withDirty b).V = s.V := rfl
@[simp] theorem withDirty_pc (b : Bool) : (s.withDirty b).pc = s.pc := rfl
@[simp] theorem withDirty_I (b : Bool) : (s.withDirty b).I = s.I := rfl
@[simp] theorem withDirty_stack (b : Bool) : (s.withDirty b).stack = s.stack := rfl
@[simp] theorem withDirty_DT (b : Bool) : (s.withDirty b).DT = s.DT := rfl
@[simp] theorem withDirty_ST (b : Bool) : (s.withDirty b).ST = s.ST := rfl
@[simp] theorem withDirty_disp (b : Bool) : (s.withDirty b).disp = s.disp := rfl
@[simp] theorem withDirty_dirty (b : Bool) : (s.withDirty b).dirty = b := rfl
@[simp] theorem withDirty_keys (b : Bool) : (s.withDirty b).keys = s.keys := rfl
@[simp] theorem withDirty_tRef (b : Bool) : (s.withDirty b).tRef = s.tRef := rfl
@[simp] theorem withDirty_halted (b : Bool) : (s.withDirty b).halted = s.halted := rfl
@[simp] theorem withDirty_params (b : Bool) : (s.withDirty b).params = s.params := rfl
@[simp] theorem withDirty_draws (b : Bool) : (s.withDirty b).draws = s.draws := rfl
@[simp] theorem withDirty_reg (b : Bool) (r : Nibble) : (s.withDirty b).reg r = s.reg r := rfl
@[simp] theorem withDirty_byteAt (b : Bool) (a : Nat) : (s.withDirty b).byteAt a = s.byteAt a := rfl

@[simp] theorem withKeys_mem (k : Vector Bool 16) : (s.withKeys k).mem = s.mem := rfl
@[simp] theorem withKeys_V (k : Vector Bool 16) : (s.withKeys k).V = s.V := rfl
@[simp] theorem withKeys_pc (k : Vector Bool 16) : (s.withKeys k).pc = s.pc := rfl
@[simp] theorem withKeys_I (k : Vector Bool 16) : (s.withKeys k).I = s.I := rfl
@[simp] theorem withKeys_stack (k : Vector Bool 16) : (s.withKeys k).stack = s.stack := rfl
@[simp] theorem withKeys_DT (k : Vector Bool 16) : (s.withKeys k).DT = s.DT := rfl
@[simp] theorem withKeys_ST (k : Vector Bool 16) : (s.withKeys k).ST = s.ST := rfl
@[simp] theorem withKeys_disp (k : Vector Bool 16) : (s.withKeys k).disp = s.disp := rfl
@[simp] theorem withKeys_dirty (k : Vector Bool 16) : (s.withKeys k).dirty = s.dirty := rfl
@[simp] theorem withKeys_keys (k : Vector Bool 16) : (s.withKeys k).keys = k := rfl
@[simp] theorem withKeys_tRef (k : Vector Bool 16) : (s.withKeys k).tRef = s.tRef := rfl
@[simp] theorem withKeys_halted (k : Vector Bool 16) : (s.withKeys k).halted = s.halted := rfl
@[simp] theorem withKeys_params (k : Vector Bool 16) : (s.withKeys k).params = s.params := rfl
@[simp] theorem withKeys_draws (k : Vector Bool 16) : (s.withKeys k).draws = s.draws := rfl
@[simp] theorem withKeys_reg (k : Vector Bool 16) (r : Nibble) : (s.withKeys k).reg r = s.reg r := rfl
@[simp] theorem withKeys_byteAt (k : Vector Bool 16) (a : Nat) : (s.withKeys k).byteAt a = s.byteAt a := rfl

@[simp] theorem withTRef_mem (t : Time) : (s.withTRef t).mem = s.mem := rfl
@[simp] theorem withTRef_V (t : Time) : (s.withTRef t).V = s.V := rfl
@[simp] theorem withTRef_pc (t : Time) : (s.withTRef t).pc = s.pc := rfl
@[simp] theorem withTRef_I (t : Time) : (s.withTRef t).I = s.I := rfl
@[simp] theorem withTRef_stack (t : Time) : (s.withTRef t).stack = s.stack := rfl
@[simp] theorem withTRef_DT (t : Time) : (s.withTRef t).DT = s.DT := rfl
@[simp] theorem withTRef_ST (t : Time) : (s.withTRef t).ST = s.ST := rfl
@[simp] theorem withTRef_disp (t : Time) : (s.withTRef t).disp = s.disp := rfl
@[simp] theorem withTRef_dirty (t : Time) : (s.withTRef t).dirty = s.dirty := rfl
@[simp] theorem withTRef_keys (t : Time) : (s.withTRef t).keys = s.keys := rfl
@[simp] theorem withTRef_tRef (t : Time) : (s.withTRef t).tRef = t := rfl
@[simp] theorem withTRef_halted (t : Time) : (s.withTRef t).halted = s.halted := rfl
@[simp] theorem withTRef_params (t : Time) : (s.withTRef t).params = s.params := rfl
@[simp] theorem withTRef_draws (t : Time) : (s.withTRef t).draws = s.draws := rfl
@[simp] theorem withTRef_reg (t : Time) (r : Nibble) : (s.withTRef t).reg r = s.reg r := rfl
@[simp] theorem withTRef_byteAt (t : Time) (a : Nat) : (s.withTRef t).byteAt a = s.byteAt a := rfl

@[simp] theorem withHalted_mem (h : Option FaultCode) : (s.withHalted h).mem = s.mem := rfl
@[simp] theorem withHalted_V (h : Option FaultCode) : (s.withHalted h).V = s.V := rfl
@[simp] theorem withHalted_pc (h : Option FaultCode) : (s.withHalted h).pc = s.pc := rfl
@[simp] theorem withHalted_I (h : Option FaultCode) : (s.withHalted h).I = s.I := rfl
@[simp] theorem withHalted_stack (h : Option FaultCode) : (s.withHalted h).stack = s.stack := rfl
@[simp] theorem withHalted_DT (h : Option FaultCode) : (s.withHalted h).DT = s.DT := rfl
@[simp] theorem withHalted_ST (h : Option FaultCode) : (s.withHalted h).ST = s.ST := rfl
@[simp] theorem withHalted_disp (h : Option FaultCode) : (s.withHalted h).disp = s.disp := rfl
@[simp] theorem withHalted_dirty (h : Option FaultCode) : (s.withHalted h).dirty = s.dirty := rfl
@[simp] theorem withHalted_keys (h : Option FaultCode) : (s.withHalted h).keys = s.keys := rfl
@[simp] theorem withHalted_tRef (h : Option FaultCode) : (s.withHalted h).tRef = s.tRef := rfl
@[simp] theorem withHalted_halted (h : Option FaultCode) : (s.withHalted h).halted = h := rfl
@[simp] theorem withHalted_params (h : Option FaultCode) : (s.withHalted h).params = s.params := rfl
@[simp] theorem withHalted_draws (h : Option FaultCode) : (s.withHalted h).draws = s.draws := rfl
@[simp] theorem withHalted_reg (h : Option FaultCode) (r : Nibble) : (s.withHalted h).reg r = s.reg r := rfl
@[simp] theorem withHalted_byteAt (h : Option FaultCode) (a : Nat) : (s.withHalted h).byteAt a = s.byteAt a := rfl

@[simp] theorem withDraws_mem (n : Nat) : (s.withDraws n).mem = s.mem := rfl
@[simp] theorem withDraws_V (n : Nat) : (s.withDraws n).V = s.V := rfl
@[simp] theorem withDraws_pc (n : Nat) : (s.withDraws n).pc = s.pc := rfl
@[simp] theorem withDraws_I (n : Nat) : (s.withDraws n).I = s.I := rfl
@[simp] theorem withDraws_stack (n : Nat) : (s.withDraws n).stack = s.stack := rfl
@[simp] theorem withDraws_DT (n : Nat) : (s.withDraws n).DT = s.DT := rfl
@[simp] theorem withDraws_ST (n : Nat) : (s.withDraws n).ST = s.ST := rfl
@[simp] theorem withDraws_disp (n : Nat) : (s.withDraws n).disp = s.disp := rfl
@[simp] theorem withDraws_dirty (n : Nat) : (s.withDraws n).dirty = s.dirty := rfl
@[simp] theorem withDraws_keys (n : Nat) : (s.withDraws n).keys = s.keys := rfl
@[simp] theorem withDraws_tRef (n : Nat) : (s.withDraws n).tRef = s.tRef := rfl
@[simp] theorem withDraws_halted (n : Nat) : (s.withDraws n).halted = s.halted := rfl
@[simp] theorem withDraws_params (n : Nat) : (s.withDraws n).params = s.params := rfl
@[simp] theorem withDraws_draws (n : Nat) : (s.withDraws n).draws = n := rfl
@[simp] theorem withDraws_reg (n : Nat) (r : Nibble) : (s.withDraws n).reg r = s.reg r := rfl
@[simp] theorem withDraws_byteAt (n : Nat) (a : Nat) : (s.withDraws n).byteAt a = s.byteAt a := rfl

@[simp] theorem setReg_mem (x : Nibble) (b : Byte) : (s.setReg x b).mem = s.mem := rfl
@[simp] theorem setReg_pc (x : Nibble) (b : Byte) : (s.setReg x b).pc = s.pc := rfl
@[simp] theorem setReg_I (x : Nibble) (b : Byte) : (s.setReg x b).I = s.I := rfl
@[simp] theorem setReg_stack (x : Nibble) (b : Byte) : (s.setReg x b).stack = s.stack := rfl
@[simp] theorem setReg_DT (x : Nibble) (b : Byte) : (s.setReg x b).DT = s.DT := rfl
@[simp] theorem setReg_ST (x : Nibble) (b : Byte) : (s.setReg x b).ST = s.ST := rfl
@[simp] theorem setReg_disp (x : Nibble) (b : Byte) : (s.setReg x b).disp = s.disp := rfl
@[simp] theorem setReg_dirty (x : Nibble) (b : Byte) : (s.setReg x b).dirty = s.dirty := rfl
@[simp] theorem setReg_keys (x : Nibble) (b : Byte) : (s.setReg x b).keys = s.keys := rfl
@[simp] theorem setReg_tRef (x : Nibble) (b : Byte) : (s.setReg x b).tRef = s.tRef := rfl
@[simp] theorem setReg_halted (x : Nibble) (b : Byte) : (s.setReg x b).halted = s.halted := rfl
@[simp] theorem setReg_params (x : Nibble) (b : Byte) : (s.setReg x b).params = s.params := rfl
@[simp] theorem setReg_draws (x : Nibble) (b : Byte) : (s.setReg x b).draws = s.draws := rfl
@[simp] theorem setReg_byteAt (x : Nibble) (b : Byte) (a : Nat) : (s.setReg x b).byteAt a = s.byteAt a := rfl

@[simp] theorem setVF_mem (b : Byte) : (s.setVF b).mem = s.mem := rfl
@[simp] theorem setVF_pc (b : Byte) : (s.setVF b).pc = s.pc := rfl
@[simp] theorem setVF_I (b : Byte) : (s.setVF b).I = s.I := rfl
@[simp] theorem setVF_stack (b : Byte) : (s.setVF b).stack = s.stack := rfl
@[simp] theorem setVF_DT (b : Byte) : (s.setVF b).DT = s.DT := rfl
@[simp] theorem setVF_ST (b : Byte) : (s.setVF b).ST = s.ST := rfl
@[simp] theorem setVF_disp (b : Byte) : (s.setVF b).disp = s.disp := rfl
@[simp] theorem setVF_dirty (b : Byte) : (s.setVF b).dirty = s.dirty := rfl
@[simp] theorem setVF_keys (b : Byte) : (s.setVF b).keys = s.keys := rfl
@[simp] theorem setVF_tRef (b : Byte) : (s.setVF b).tRef = s.tRef := rfl
@[simp] theorem setVF_halted (b : Byte) : (s.setVF b).halted = s.halted := rfl
@[simp] theorem setVF_params (b : Byte) : (s.setVF b).params = s.params := rfl
@[simp] theorem setVF_draws (b : Byte) : (s.setVF b).draws = s.draws := rfl
@[simp] theorem setVF_byteAt (b : Byte) (a : Nat) : (s.setVF b).byteAt a = s.byteAt a := rfl

@[simp] theorem setRegs_mem (bytes : List Byte) : (s.setRegs bytes).mem = s.mem := rfl
@[simp] theorem setRegs_pc (bytes : List Byte) : (s.setRegs bytes).pc = s.pc := rfl
@[simp] theorem setRegs_I (bytes : List Byte) : (s.setRegs bytes).I = s.I := rfl
@[simp] theorem setRegs_stack (bytes : List Byte) : (s.setRegs bytes).stack = s.stack := rfl
@[simp] theorem setRegs_DT (bytes : List Byte) : (s.setRegs bytes).DT = s.DT := rfl
@[simp] theorem setRegs_ST (bytes : List Byte) : (s.setRegs bytes).ST = s.ST := rfl
@[simp] theorem setRegs_disp (bytes : List Byte) : (s.setRegs bytes).disp = s.disp := rfl
@[simp] theorem setRegs_dirty (bytes : List Byte) : (s.setRegs bytes).dirty = s.dirty := rfl
@[simp] theorem setRegs_keys (bytes : List Byte) : (s.setRegs bytes).keys = s.keys := rfl
@[simp] theorem setRegs_tRef (bytes : List Byte) : (s.setRegs bytes).tRef = s.tRef := rfl
@[simp] theorem setRegs_halted (bytes : List Byte) : (s.setRegs bytes).halted = s.halted := rfl
@[simp] theorem setRegs_params (bytes : List Byte) : (s.setRegs bytes).params = s.params := rfl
@[simp] theorem setRegs_draws (bytes : List Byte) : (s.setRegs bytes).draws = s.draws := rfl
@[simp] theorem setRegs_byteAt (bytes : List Byte) (a : Nat) : (s.setRegs bytes).byteAt a = s.byteAt a := rfl

@[simp] theorem setByte_V (x : Nat) (b : Byte) : (s.setByte x b).V = s.V := rfl
@[simp] theorem setByte_pc (x : Nat) (b : Byte) : (s.setByte x b).pc = s.pc := rfl
@[simp] theorem setByte_I (x : Nat) (b : Byte) : (s.setByte x b).I = s.I := rfl
@[simp] theorem setByte_stack (x : Nat) (b : Byte) : (s.setByte x b).stack = s.stack := rfl
@[simp] theorem setByte_DT (x : Nat) (b : Byte) : (s.setByte x b).DT = s.DT := rfl
@[simp] theorem setByte_ST (x : Nat) (b : Byte) : (s.setByte x b).ST = s.ST := rfl
@[simp] theorem setByte_disp (x : Nat) (b : Byte) : (s.setByte x b).disp = s.disp := rfl
@[simp] theorem setByte_dirty (x : Nat) (b : Byte) : (s.setByte x b).dirty = s.dirty := rfl
@[simp] theorem setByte_keys (x : Nat) (b : Byte) : (s.setByte x b).keys = s.keys := rfl
@[simp] theorem setByte_tRef (x : Nat) (b : Byte) : (s.setByte x b).tRef = s.tRef := rfl
@[simp] theorem setByte_halted (x : Nat) (b : Byte) : (s.setByte x b).halted = s.halted := rfl
@[simp] theorem setByte_params (x : Nat) (b : Byte) : (s.setByte x b).params = s.params := rfl
@[simp] theorem setByte_draws (x : Nat) (b : Byte) : (s.setByte x b).draws = s.draws := rfl
@[simp] theorem setByte_regs (x : Nat) (b : Byte) (r : Nibble) : (s.setByte x b).reg r = s.reg r := rfl

@[simp] theorem timerGate_mem (now : Time) : (s.timerGate now).mem = s.mem := rfl
@[simp] theorem timerGate_V (now : Time) : (s.timerGate now).V = s.V := rfl
@[simp] theorem timerGate_pc (now : Time) : (s.timerGate now).pc = s.pc := rfl
@[simp] theorem timerGate_I (now : Time) : (s.timerGate now).I = s.I := rfl
@[simp] theorem timerGate_stack (now : Time) : (s.timerGate now).stack = s.stack := rfl
@[simp] theorem timerGate_disp (now : Time) : (s.timerGate now).disp = s.disp := rfl
@[simp] theorem timerGate_dirty (now : Time) : (s.timerGate now).dirty = s.dirty := rfl
@[simp] theorem timerGate_keys (now : Time) : (s.timerGate now).keys = s.keys := rfl
@[simp] theorem timerGate_halted (now : Time) : (s.timerGate now).halted = s.halted := rfl
@[simp] theorem timerGate_params (now : Time) : (s.timerGate now).params = s.params := rfl
@[simp] theorem timerGate_regs (now : Time) (r : Nibble) : (s.timerGate now).reg r = s.reg r := rfl
@[simp] theorem timerGate_byteAt (now : Time) (a : Nat) : (s.timerGate now).byteAt a = s.byteAt a := rfl

@[simp] theorem advance_mem  : (s.advance).mem = s.mem := rfl
@[simp] theorem advance_V  : (s.advance).V = s.V := rfl
@[simp] theorem advance_I  : (s.advance).I = s.I := rfl
@[simp] theorem advance_stack  : (s.advance).stack = s.stack := rfl
@[simp] theorem advance_DT  : (s.advance).DT = s.DT := rfl
@[simp] theorem advance_ST  : (s.advance).ST = s.ST := rfl
@[simp] theorem advance_disp  : (s.advance).disp = s.disp := rfl
@[simp] theorem advance_dirty  : (s.advance).dirty = s.dirty := rfl
@[simp] theorem advance_keys  : (s.advance).keys = s.keys := rfl
@[simp] theorem advance_tRef  : (s.advance).tRef = s.tRef := rfl
@[simp] theorem advance_halted  : (s.advance).halted = s.halted := rfl
@[simp] theorem advance_params  : (s.advance).params = s.params := rfl
@[simp] theorem advance_draws  : (s.advance).draws = s.draws := rfl
@[simp] theorem advance_regs  (r : Nibble) : (s.advance).reg r = s.reg r := rfl
@[simp] theorem advance_byteAt  (a : Nat) : (s.advance).byteAt a = s.byteAt a := rfl

@[simp] theorem skipIf_mem (c : Bool) : (s.skipIf c).mem = s.mem := rfl
@[simp] theorem skipIf_V (c : Bool) : (s.skipIf c).V = s.V := rfl
@[simp] theorem skipIf_I (c : Bool) : (s.skipIf c).I = s.I := rfl
@[simp] theorem skipIf_stack (c : Bool) : (s.skipIf c).stack = s.stack := rfl
@[simp] theorem skipIf_DT (c : Bool) : (s.skipIf c).DT = s.DT := rfl
@[simp] theorem skipIf_ST (c : Bool) : (s.skipIf c).ST = s.ST := rfl
@[simp] theorem skipIf_disp (c : Bool) : (s.skipIf c).disp = s.disp := rfl
@[simp] theorem skipIf_dirty (c : Bool) : (s.skipIf c).dirty = s.dirty := rfl
@[simp] theorem skipIf_keys (c : Bool) : (s.skipIf c).keys = s.keys := rfl
@[simp] theorem skipIf_tRef (c : Bool) : (s.skipIf c).tRef = s.tRef := rfl
@[simp] theorem skipIf_halted (c : Bool) : (s.skipIf c).halted = s.halted := rfl
@[simp] theorem skipIf_params (c : Bool) : (s.skipIf c).params = s.params := rfl
@[simp] theorem skipIf_draws (c : Bool) : (s.skipIf c).draws = s.draws := rfl
@[simp] theorem skipIf_regs (c : Bool) (r : Nibble) : (s.skipIf c).reg r = s.reg r := rfl
@[simp] theorem skipIf_byteAt (c : Bool) (a : Nat) : (s.skipIf c).byteAt a = s.byteAt a := rfl

@[simp] theorem rewind_mem  : (s.rewind).mem = s.mem := rfl
@[simp] theorem rewind_V  : (s.rewind).V = s.V := rfl
@[simp] theorem rewind_I  : (s.rewind).I = s.I := rfl
@[simp] theorem rewind_stack  : (s.rewind).stack = s.stack := rfl
@[simp] theorem rewind_DT  : (s.rewind).DT = s.DT := rfl
@[simp] theorem rewind_ST  : (s.rewind).ST = s.ST := rfl
@[simp] theorem rewind_disp  : (s.rewind).disp = s.disp := rfl
@[simp] theorem rewind_dirty  : (s.rewind).dirty = s.dirty := rfl
@[simp] theorem rewind_keys  : (s.rewind).keys = s.keys := rfl
@[simp] theorem rewind_tRef  : (s.rewind).tRef = s.tRef := rfl
@[simp] theorem rewind_halted  : (s.rewind).halted = s.halted := rfl
@[simp] theorem rewind_params  : (s.rewind).params = s.params := rfl
@[simp] theorem rewind_draws  : (s.rewind).draws = s.draws := rfl
@[simp] theorem rewind_regs  (r : Nibble) : (s.rewind).reg r = s.reg r := rfl
@[simp] theorem rewind_byteAt  (a : Nat) : (s.rewind).byteAt a = s.byteAt a := rfl

@[simp] theorem push_mem (v : Word) : (s.push v).mem = s.mem := rfl
@[simp] theorem push_V (v : Word) : (s.push v).V = s.V := rfl
@[simp] theorem push_pc (v : Word) : (s.push v).pc = s.pc := rfl
@[simp] theorem push_I (v : Word) : (s.push v).I = s.I := rfl
@[simp] theorem push_DT (v : Word) : (s.push v).DT = s.DT := rfl
@[simp] theorem push_ST (v : Word) : (s.push v).ST = s.ST := rfl
@[simp] theorem push_disp (v : Word) : (s.push v).disp = s.disp := rfl
@[simp] theorem push_dirty (v : Word) : (s.push v).dirty = s.dirty := rfl
@[simp] theorem push_keys (v : Word) : (s.push v).keys = s.keys := rfl
@[simp] theorem push_tRef (v : Word) : (s.push v).tRef = s.tRef := rfl
@[simp] theorem push_halted (v : Word) : (s.push v).halted = s.halted := rfl
@[simp] theorem push_params (v : Word) : (s.push v).params = s.params := rfl
@[simp] theorem push_draws (v : Word) : (s.push v).draws = s.draws := rfl
@[simp] theorem push_regs (v : Word) (r : Nibble) : (s.push v).reg r = s.reg r := rfl
@[simp] theorem push_byteAt (v : Word) (a : Nat) : (s.push v).byteAt a = s.byteAt a := rfl

@[simp] theorem drawn_mem  : (s.drawn).mem = s.mem := rfl
@[simp] theorem drawn_V  : (s.drawn).V = s.V := rfl
@[simp] theorem drawn_pc  : (s.drawn).pc = s.pc := rfl
@[simp] theorem drawn_I  : (s.drawn).I = s.I := rfl
@[simp] theorem drawn_stack  : (s.drawn).stack = s.stack := rfl
@[simp] theorem drawn_DT  : (s.drawn).DT = s.DT := rfl
@[simp] theorem drawn_ST  : (s.drawn).ST = s.ST := rfl
@[simp] theorem drawn_disp  : (s.drawn).disp = s.disp := rfl
@[simp] theorem drawn_dirty  : (s.drawn).dirty = s.dirty := rfl
@[simp] theorem drawn_keys  : (s.drawn).keys = s.keys := rfl
@[simp] theorem drawn_tRef  : (s.drawn).tRef = s.tRef := rfl
@[simp] theorem drawn_halted  : (s.drawn).halted = s.halted := rfl
@[simp] theorem drawn_params  : (s.drawn).params = s.params := rfl
@[simp] theorem drawn_regs  (r : Nibble) : (s.drawn).reg r = s.reg r := rfl
@[simp] theorem drawn_byteAt  (a : Nat) : (s.drawn).byteAt a = s.byteAt a := rfl

@[simp] theorem advance_pc : s.advance.pc = s.pc + 2 := rfl
@[simp] theorem skipIf_pc (c : Bool) : (s.skipIf c).pc = if c then s.pc + 2 else s.pc := rfl
@[simp] theorem rewind_pc : s.rewind.pc = s.pc - 2 := rfl
@[simp] theorem push_stack (v : Word) : (s.push v).stack = v :: s.stack := rfl
@[simp] theorem drawn_draws : s.drawn.draws = s.draws + 1 := rfl
@[simp] theorem timerGate_DT (now : Time) : (s.timerGate now).DT = timerNext (s.tickDue now) s.DT := rfl
@[simp] theorem timerGate_ST (now : Time) : (s.timerGate now).ST = timerNext (s.tickDue now) s.ST := rfl
@[simp] theorem timerGate_tRef (now : Time) : (s.timerGate now).tRef = if s.tickDue now then now else s.tRef := rfl
@[simp] theorem timerGate_draws (now : Time) : (s.timerGate now).draws = s.draws + 1 := rfl

end Sys2Proof.Machine
end

