-- ==== Sys2Proof/Laws/Memory.lean ====
section
/-! SUPPORT. The laws of memory: a read after a write, and that a write keeps the canonical form. -/

namespace Sys2Proof.Machine

theorem Memory.wfFrom_cons {p : Params} {lo a : Nat} {b : Byte} {m : Memory} :
    Memory.wfFrom p lo ((a, b) :: m) = true ↔
      lo ≤ a ∧ a < 4096 ∧ b ≠ p.resetByte a ∧ Memory.wfFrom p (a + 1) m = true := by
  simp only [Memory.wfFrom, Bool.and_eq_true, decide_eq_true_eq, bne_iff_ne, and_assoc]

theorem Memory.wfFrom_weaken {p : Params} {m : Memory} {lo lo' : Nat} (hle : lo' ≤ lo)
    (h : Memory.wfFrom p lo m = true) : Memory.wfFrom p lo' m = true := by
  cases m with
  | nil => rfl
  | cons c m =>
    obtain ⟨a, b⟩ := c
    rw [Memory.wfFrom_cons] at h ⊢
    exact ⟨by omega, h.2⟩

/-- Below every listed address, memory reads its reset content. -/
theorem Memory.read_below {p : Params} {m : Memory} {lo a : Nat} (h : Memory.wfFrom p lo m = true) (ha : a < lo) :
    Memory.read p m a = p.resetByte a := by
  induction m generalizing lo with
  | nil => rfl
  | cons c m ih =>
    obtain ⟨k, b⟩ := c
    rw [Memory.wfFrom_cons] at h
    rw [Memory.read, if_neg (by omega)]
    exact ih h.2.2.2 (by omega)

theorem Memory.read_cell_append (p : Params) (a : Nat) (b : Byte) (m : Memory) (x : Nat) :
    Memory.read p (Memory.cell p a b ++ m) x =
      if x = a then (if b = p.resetByte a then Memory.read p m a else b) else Memory.read p m x := by
  unfold Memory.cell
  by_cases hx : x = a
  · subst hx; split <;> simp [Memory.read, *]
  · split <;> simp [Memory.read, hx]

/-- A write leaves every other address alone. -/
theorem Memory.read_write_other {p : Params} {m : Memory} {a x : Nat} {b : Byte} (hx : x ≠ a) :
    Memory.read p (Memory.write p a b m) x = Memory.read p m x := by
  induction m with
  | nil =>
    have := Memory.read_cell_append p a b [] x
    simpa [Memory.write, hx] using this
  | cons c m ih =>
    obtain ⟨k, d⟩ := c
    rw [Memory.write]
    split
    · simp [Memory.read, ih]
    · split
      · next hk => subst hk; simp [Memory.read_cell_append, Memory.read, hx]
      · simp [Memory.read_cell_append, hx]

/-- A read after a write gives the byte written. -/
theorem Memory.read_write_same {p : Params} {m : Memory} {lo a : Nat} {b : Byte} (h : Memory.wfFrom p lo m = true) :
    Memory.read p (Memory.write p a b m) a = b := by
  induction m generalizing lo with
  | nil =>
    have := Memory.read_cell_append p a b [] a
    simp only [List.append_nil, if_true, Memory.read] at this
    rw [Memory.write, this]; split <;> simp_all
  | cons c m ih =>
    obtain ⟨k, d⟩ := c
    have h' := h
    rw [Memory.wfFrom_cons] at h'
    rw [Memory.write]
    split
    · rw [Memory.read, if_neg (by omega)]; exact ih h'.2.2.2
    · split
      · rw [Memory.read_cell_append, if_pos rfl]
        split
        · rw [Memory.read_below h'.2.2.2 (by omega)]; simp_all
        · rfl
      · rw [Memory.read_cell_append, if_pos rfl]
        split
        · have hk : Memory.wfFrom p k ((k, d) :: m) = true := Memory.wfFrom_cons.mpr ⟨le_refl k, h'.2⟩
          rw [Memory.read_below hk (by omega)]; simp_all
        · rfl

theorem Memory.wfFrom_cell_append {p : Params} {m : Memory} {lo a : Nat} {b : Byte} (hlo : lo ≤ a) (ha : a < 4096)
    (h : Memory.wfFrom p (a + 1) m = true) : Memory.wfFrom p lo (Memory.cell p a b ++ m) = true := by
  unfold Memory.cell
  split
  · exact Memory.wfFrom_weaken (by omega) h
  · exact Memory.wfFrom_cons.mpr ⟨hlo, ha, by assumption, h⟩

theorem Memory.wfFrom_write {p : Params} {m : Memory} {lo a : Nat} {b : Byte} (hlo : lo ≤ a) (ha : a < 4096)
    (h : Memory.wfFrom p lo m = true) : Memory.wfFrom p lo (Memory.write p a b m) = true := by
  induction m generalizing lo with
  | nil => simpa [Memory.write] using Memory.wfFrom_cell_append (m := []) hlo ha rfl
  | cons c m ih =>
    obtain ⟨k, d⟩ := c
    rw [Memory.wfFrom_cons] at h
    rw [Memory.write]
    split
    · exact Memory.wfFrom_cons.mpr ⟨h.1, h.2.1, h.2.2.1, ih (by omega) h.2.2.2⟩
    · split
      · next hk => subst hk; exact Memory.wfFrom_cell_append hlo ha h.2.2.2
      · exact Memory.wfFrom_cell_append hlo ha (Memory.wfFrom_cons.mpr ⟨by omega, h.2⟩)

/-- A write below the top of memory keeps the canonical form. -/
theorem Memory.wf_write {p : Params} {m : Memory} {a : Nat} {b : Byte} (ha : a < 4096) (h : Memory.wf p m = true) :
    Memory.wf p (Memory.write p a b m) = true :=
  Memory.wfFrom_write (Nat.zero_le a) ha h

end Sys2Proof.Machine
end

