-- ==== Sys2Proof/Laws/Ops.lean ====
section
/-! SUPPORT. What each shared operation can do, said once: the register file, checked memory accesses, fetch, keys,
the stack, sprite rows and the timer gate. -/

namespace Sys2Proof.Machine

/-! Registers. -/

/-- A register after a register write. -/
@[simp] theorem setReg_reg (s : State) (x r : Nibble) (b : Byte) :
    (s.setReg x b).reg r = if r = x then b else s.reg r := by
  have h : x.toNat = r.toNat ↔ r = x := by rw [BitVec.toNat_inj]; exact eq_comm
  simp only [State.setReg, State.reg, withV_V, Vector.getElem_set, h]

@[simp] theorem setVF_reg (s : State) (r : Nibble) (b : Byte) :
    (s.setVF b).reg r = if r = 0xF#4 then b else s.reg r := setReg_reg s _ r b

/-- A register after `setRegs`: the list's byte where the list reaches, else what it was. -/
@[simp] theorem setRegs_reg (s : State) (bytes : List Byte) (r : Nibble) :
    (s.setRegs bytes).reg r = (bytes[r.toNat]?).getD (s.reg r) := by
  simp [State.setRegs, State.reg]

theorem regsThrough_length (s : State) (x : Nibble) : (s.regsThrough x).length = x.toNat + 1 := by
  have := x.isLt
  simp only [State.regsThrough, List.length_take, Vector.length_toList]; omega

/-- Byte `k` of the register range V0 to Vx is Vk. -/
theorem regsThrough_getElem (s : State) (x : Nibble) (k : Nat) (hk : k ≤ x.toNat) :
    (s.regsThrough x)[k]? = some (s.reg (BitVec.ofNat 4 k)) := by
  have := x.isLt
  have h16 : k % 16 = k := Nat.mod_eq_of_lt (by omega)
  simp [State.regsThrough, State.reg, h16, Nat.lt_succ_of_le hk, show k < 16 by omega]

/-! Checked accesses. -/

theorem memRead_ok {s : State} {a : Nat} (h : a ≤ 0xFFF) : s.memRead a = .ok (s.byteAt a) := by
  rw [State.memRead, if_neg (by omega)]

theorem memRead_error {s : State} {a : Nat} (h : 0xFFF < a) : s.memRead a = .error (.memBounds a) := by
  rw [State.memRead, if_pos h]

/-- A read inside memory gives the bytes there, in order. -/
theorem memReads_ok {s : State} {n : Nat} : ∀ {a : Nat}, ReadOk a n →
    s.memReads a n = .ok ((List.range n).map fun k => s.byteAt (a + k)) := by
  induction n with
  | zero => intros; rfl
  | succ n ih =>
    intro a h
    have h0 := h 0 (by omega)
    have hs : ReadOk (a + 1) n := fun k hk => by have := h (k + 1) (by omega); omega
    rw [State.memReads, memRead_ok (by omega)]
    simp only [ih hs, List.range_succ_eq_map, List.map_cons, List.map_map, Nat.add_zero]
    congr 2
    apply List.map_congr_left
    intro k _
    simp [Nat.add_assoc, Nat.add_comm 1 k]

/-- A read that leaves memory faults at the first address that does. -/
theorem memReads_error {s : State} {n : Nat} : ∀ {a : Nat}, ¬ ReadOk a n →
    s.memReads a n = .error (.memBounds (max a 0x1000)) := by
  induction n with
  | zero => intro a h; exact absurd (fun k hk => absurd hk (by omega)) h
  | succ n ih =>
    intro a h
    by_cases ha : a ≤ 0xFFF
    · have hs : ¬ ReadOk (a + 1) n := fun hr => h fun k hk => by
        cases k with
        | zero => omega
        | succ k => have := hr k (by omega); omega
      simp only [State.memReads, memRead_ok ha, ih hs]
      congr 2; omega
    · simp only [State.memReads, memRead_error (show 0xFFF < a by omega)]
      congr 2; omega

/-- Laying bytes changes memory alone. -/
theorem placeBytes_eq (bs : List Byte) : ∀ (s : State) (a : Nat), ∃ m, s.placeBytes a bs = s.withMem m := by
  induction bs with
  | nil => exact fun s _ => ⟨s.mem, rfl⟩
  | cons b bs ih => exact fun s a => by obtain ⟨m, hm⟩ := ih (s.setByte a b) (a + 1); exact ⟨m, hm⟩

/-- `placeBytes` changes memory alone, to what it makes of parameters and memory. -/
theorem placeBytes_withMem (bs : List Byte) : ∀ (s : State) (a : Nat),
    s.placeBytes a bs = s.withMem (s.placeBytes a bs).mem := by
  intro s a; obtain ⟨m, hm⟩ := placeBytes_eq bs s a; rw [hm]; rfl

/-- The memory `placeBytes` leaves depends on the parameters and the memory alone. -/
theorem placeBytes_congr (bs : List Byte) : ∀ {s u : State} (a : Nat), u.params = s.params → u.mem = s.mem →
    (u.placeBytes a bs).mem = (s.placeBytes a bs).mem := by
  induction bs with
  | nil => intro s u a _ hm; exact hm
  | cons b bs ih =>
    intro s u a hp hm
    exact ih (a + 1) hp (by simp only [State.setByte, State.withMem, hp, hm])

theorem setByte_wf {s : State} {a : Nat} {b : Byte} (ha : a < 4096) (h : Memory.wf s.params s.mem = true) :
    Memory.wf (s.setByte a b).params (s.setByte a b).mem = true := Memory.wf_write ha h

/-- Laying bytes inside memory keeps the canonical form. -/
theorem placeBytes_wf (bs : List Byte) : ∀ {s : State} {a : Nat}, a + bs.length ≤ 4096 →
    Memory.wf s.params s.mem = true →
    Memory.wf (s.placeBytes a bs).params (s.placeBytes a bs).mem = true := by
  induction bs with
  | nil => intro s a _ h; exact h
  | cons b bs ih =>
    intro s a hl h
    simp only [List.length_cons] at hl
    exact ih (by omega) (setByte_wf (by omega) h)

/-- Bytes outside the laid range stay. -/
theorem placeBytes_other (bs : List Byte) : ∀ {s : State} {a x : Nat}, (∀ k, k < bs.length → x ≠ a + k) →
    (s.placeBytes a bs).byteAt x = s.byteAt x := by
  induction bs with
  | nil => intros; rfl
  | cons b bs ih =>
    intro s a x hx
    have h0 : x ≠ a := hx 0 (by simp)
    rw [State.placeBytes, ih fun k hk => by have := hx (k + 1) (by simpa using hk); omega]
    exact Memory.read_write_other h0

/-- Bytes inside the laid range read as laid. -/
theorem placeBytes_same (bs : List Byte) : ∀ {s : State} {a k : Nat}, a + bs.length ≤ 4096 →
    Memory.wf s.params s.mem = true → (hk : k < bs.length) → (s.placeBytes a bs).byteAt (a + k) = bs[k] := by
  induction bs with
  | nil => intro s a k _ _ hk; exact absurd hk (by simp)
  | cons b bs ih =>
    intro s a k hl hw hk
    simp only [List.length_cons] at hl hk
    rw [State.placeBytes]
    cases k with
    | zero =>
      rw [placeBytes_other bs fun j _ => by omega]
      exact Memory.read_write_same hw
    | succ k =>
      rw [show a + (k + 1) = a + 1 + k by omega]
      exact ih (by omega) (setByte_wf (by omega) hw) (by omega)

theorem memWrite_ok {s : State} {a : Nat} {b : Byte} (h : StoreOk s a 1) : s.memWrite a b = .ok (s.setByte a b) := by
  have := h 0 (by omega)
  rw [State.memWrite, if_neg (by omega), if_neg]
  rintro ⟨hp, ha⟩
  have := this.2 hp
  omega

/-- A store all of whose bytes may be written lays them. -/
theorem memWrites_ok (bs : List Byte) : ∀ {s : State} {a : Nat}, StoreOk s a bs.length →
    s.memWrites a bs = .ok (s.placeBytes a bs) := by
  induction bs with
  | nil => intros; rfl
  | cons b bs ih =>
    intro s a h
    have h1 : StoreOk s a 1 := fun k hk => h k (by simp; omega)
    have hs : StoreOk (s.setByte a b) (a + 1) bs.length := fun k hk => by
      have := h (k + 1) (by simpa using hk)
      exact ⟨by omega, fun hp => by have := this.2 hp; omega⟩
    simp only [State.memWrites, memWrite_ok h1, ih hs, State.placeBytes]

/-- After a byte that may be written, the store's fault is that of leaving memory at the top. -/
theorem storeFault_of_first_ok {s : State} {a : Nat} (h : StoreOk s a 1) : storeFault s a = .memBounds 0x1000 := by
  have h0 := h 0 (by omega)
  rw [storeFault, if_neg (by omega), if_neg]
  rintro ⟨hp, ha⟩
  have := h0.2 hp
  omega

theorem storeFault_next {s : State} {a : Nat} {b : Byte} (h : StoreOk s a 1) :
    storeFault (s.setByte a b) (a + 1) = .memBounds 0x1000 := by
  have h0 := h 0 (by omega)
  rw [storeFault]
  split
  · congr 1; omega
  · rw [if_neg]
    rintro ⟨hp, ha⟩
    have := h0.2 hp
    omega

theorem memWrites_error (bs : List Byte) : ∀ {s : State} {a : Nat}, ¬ StoreOk s a bs.length →
    s.memWrites a bs = .error (storeFault s a) := by
  induction bs with
  | nil => intro s a h; exact absurd (fun k hk => absurd hk (by simp)) h
  | cons b bs ih =>
    intro s a h
    by_cases h1 : StoreOk s a 1
    · have h0 := h1 0 (by omega)
      have hs : ¬ StoreOk (s.setByte a b) (a + 1) bs.length := fun hr => h fun k hk => by
        cases k with
        | zero => exact h0
        | succ k =>
          have := hr k (by simpa using hk)
          exact ⟨by omega, fun hp => by have := this.2 hp; omega⟩
      simp only [State.memWrites, memWrite_ok h1, ih hs, storeFault_next h1, storeFault_of_first_ok h1]
    · simp only [State.memWrites, State.memWrite, storeFault]
      by_cases ha : a > 0xFFF
      · simp [ha]
      · by_cases hp : s.params.protectLow = true ∧ a < 0x200
        · simp [ha, hp]
        · exact absurd (fun k hk => ⟨by omega, fun hq => by
            by_contra hc; exact hp ⟨hq, by omega⟩⟩) h1

/-- Fetch inside memory reads the two bytes at `pc`, big-endian. -/
theorem fetch_ok {s : State} (h : s.pc.toNat ≤ 0xFFE) :
    s.fetch = .ok (bigEndian (s.byteAt s.pc.toNat) (s.byteAt (s.pc.toNat + 1))) := by
  simp only [State.fetch, memRead_ok (show s.pc.toNat ≤ 0xFFF by omega), memRead_ok (show s.pc.toNat + 1 ≤ 0xFFF by omega)]

/-- Fetch off the end of memory faults at the first failing address. -/
theorem fetch_error {s : State} (h : 0xFFE < s.pc.toNat) :
    s.fetch = .error (.memBounds (max s.pc.toNat 0x1000)) := by
  by_cases h' : s.pc.toNat ≤ 0xFFF
  · simp only [State.fetch, memRead_ok h', memRead_error (show 0xFFF < s.pc.toNat + 1 by omega)]
    congr 2; omega
  · simp only [State.fetch, memRead_error (show 0xFFF < s.pc.toNat by omega)]
    congr 2; omega

/-! Keys. -/

theorem keyState_ok {s : State} {k : Byte} (h : k.toNat < 16) : s.keyState k = .ok s.keys[k.toNat] := by
  rw [State.keyState, dif_pos h]

theorem keyState_error {s : State} {k : Byte} (h : ¬ k.toNat < 16) : s.keyState k = .error (.keyIndex k) := by
  rw [State.keyState, dif_neg h]

theorem lowestKey_some {s : State} {k : Nat} :
    s.lowestKey = some k ↔ ∃ h : k < 16, s.keys[k] = true ∧ ∀ j (hj : j < k), s.keys[j] = false := by
  simp [State.lowestKey, List.findIdx?_eq_some_iff_getElem]

theorem lowestKey_none {s : State} : s.lowestKey = none ↔ ∀ k (h : k < 16), s.keys[k] = false := by
  simp [State.lowestKey, Vector.mem_iff_getElem]

/-! Sprites. -/

/-- A sprite row's pixel at column `c`: bit `7 - (c - x0)` of the byte, off outside its eight columns. -/
theorem spriteRow_getMsbD (b : Byte) (x0 c : Nat) (hc : c < 64) :
    (spriteRow b x0).getMsbD c = (decide (x0 ≤ c) && decide (c < x0 + 8) && b.getMsbD (c - x0)) := by
  simp only [spriteRow, BitVec.getMsbD_ushiftRight, BitVec.getMsbD_shiftLeft, BitVec.getMsbD_setWidth]
  grind

end Sys2Proof.Machine
end

