-- ==== Sys2Proof/Laws/Exec.lean ====
section
/-! SUPPORT. What each instruction with more than one outcome answers, said once per outcome, and the flags and
results of the ALU as numbers. The other instructions answer `.next` of a term by definition. -/

namespace Sys2Proof.Machine

/-! Control flow. -/

theorem exec_ret_nil {s : State} (h : s.stack = []) : exec .ret s = .fault (.emptyStackReturn (s.pc - 2)) := by
  simp only [exec, execRet, h]; rfl

theorem exec_ret_cons {s : State} {v : Word} {rest : List Word} (h : s.stack = v :: rest) :
    exec .ret s = .next ((s.withStack rest).withPc v) := by
  simp only [exec, execRet, h]

theorem exec_call_full {s : State} {nnn : Addr12} (h : s.params.stackLimit = some s.stack.length) :
    exec (.call nnn) s = .fault (.stackLimit (s.pc - 2)) := by
  have : s.stackFull = true := by simp [State.stackFull, h]
  simp only [exec, execCall, this, if_true]; rfl

theorem exec_call_ok {s : State} {nnn : Addr12} (h : s.params.stackLimit ≠ some s.stack.length) :
    exec (.call nnn) s = .next ((s.push s.pc).withPc (addrImm nnn)) := by
  have : s.stackFull = false := by simp [State.stackFull, h]
  simp only [exec, execCall, this]; rfl

@[simp] theorem addrImm_toNat (nnn : Addr12) : (addrImm nnn).toNat = nnn.toNat := by
  have := nnn.isLt
  rw [addrImm, BitVec.toNat_setWidth, Nat.mod_eq_of_lt (by omega)]

/-! Memory. -/

theorem exec_storeBcd_ok {s : State} {x : Nibble} (h : StoreOk s s.base 3) :
    exec (.storeBcd x) s = .next (s.placeBytes s.base (decimalDigits (s.reg x))) := by
  simp only [exec, execStoreBcd]; rw [memWrites_ok _ h]; rfl

theorem exec_storeBcd_fault {s : State} {x : Nibble} (h : ¬ StoreOk s s.base 3) :
    exec (.storeBcd x) s = .fault (storeFault s s.base) := by
  simp only [exec, execStoreBcd]; rw [memWrites_error _ h]; rfl

theorem exec_storeRegs_ok {s : State} {x : Nibble} (h : StoreOk s s.base (x.toNat + 1)) :
    exec (.storeRegs x) s = .next (s.placeBytes s.base (s.regsThrough x)) := by
  simp only [exec, execStoreRegs]; rw [memWrites_ok _ (by rwa [regsThrough_length])]; rfl

theorem exec_storeRegs_fault {s : State} {x : Nibble} (h : ¬ StoreOk s s.base (x.toNat + 1)) :
    exec (.storeRegs x) s = .fault (storeFault s s.base) := by
  simp only [exec, execStoreRegs]; rw [memWrites_error _ (by rwa [regsThrough_length])]; rfl

theorem exec_loadRegs_ok {s : State} {x : Nibble} (h : ReadOk s.base (x.toNat + 1)) :
    exec (.loadRegs x) s = .next (s.setRegs ((List.range (x.toNat + 1)).map fun k => s.byteAt (s.base + k))) := by
  simp only [exec, execLoadRegs, memReads_ok h]; rfl

theorem exec_loadRegs_fault {s : State} {x : Nibble} (h : ¬ ReadOk s.base (x.toNat + 1)) :
    exec (.loadRegs x) s = .fault (readFault s.base) := by
  simp only [exec, execLoadRegs, memReads_error h]; rfl

/-! Display. -/

theorem exec_draw_ok {s : State} {x y n : Nibble} (h : ReadOk s.base n.toNat) :
    exec (.draw x y n) s = .next (s.drawRows (originColumn (s.reg x)) (originRow (s.reg y))
      ((List.range n.toNat).map fun k => s.byteAt (s.base + k))) := by
  simp only [exec, execDraw, memReads_ok h]; rfl

theorem exec_draw_fault {s : State} {x y n : Nibble} (h : ¬ ReadOk s.base n.toNat) :
    exec (.draw x y n) s = .fault (readFault s.base) := by
  simp only [exec, execDraw, memReads_error h]; rfl

@[simp] theorem pixel_blankDisplay (r c : Nat) : Display.pixel blankDisplay r c = false := by
  unfold Display.pixel blankDisplay; split <;> simp

/-! Keys. -/

theorem exec_skipKey_ok {s : State} {x : Nibble} (h : (s.reg x).toNat < 16) :
    exec (.skipKey x) s = .next (s.skipIf s.keys[(s.reg x).toNat]) := by
  simp only [exec, execSkipKey, keyState_ok h]; rfl

theorem exec_skipNotKey_ok {s : State} {x : Nibble} (h : (s.reg x).toNat < 16) :
    exec (.skipNotKey x) s = .next (s.skipIf !s.keys[(s.reg x).toNat]) := by
  simp only [exec, execSkipNotKey, keyState_ok h]; rfl

theorem exec_skipKey_fault {s : State} {x : Nibble} (h : ¬ (s.reg x).toNat < 16) :
    exec (.skipKey x) s = .fault (.keyIndex (s.reg x)) := by
  simp only [exec, execSkipKey, keyState_error h]; rfl

theorem exec_skipNotKey_fault {s : State} {x : Nibble} (h : ¬ (s.reg x).toNat < 16) :
    exec (.skipNotKey x) s = .fault (.keyIndex (s.reg x)) := by
  simp only [exec, execSkipNotKey, keyState_error h]; rfl

theorem exec_waitKey_some {s : State} {x : Nibble} {k : Nat} (h : s.lowestKey = some k) :
    exec (.waitKey x) s = .next (s.setReg x (BitVec.ofNat 8 k)) := by
  simp only [exec, execWaitKey, h]

theorem exec_waitKey_none {s : State} {x : Nibble} (h : s.lowestKey = none) :
    exec (.waitKey x) s = .next s.rewind := by
  simp only [exec, execWaitKey, h]

/-! Reset. -/

theorem construct_ok {p : Params} {now : Time} {bytes : List Byte} (h : bytes.length ≤ 3584) :
    construct p now (some bytes) = .next ((State.initial p now).placeBytes 0x200 bytes) := by
  simp only [construct]
  rw [if_neg (show ¬ bytes.length > 3584 by omega)]

/-! Arithmetic. -/

@[simp] theorem setRegFlag_reg (s : State) (x r : Nibble) (result flag : Byte) :
    (s.setRegFlag x result flag).reg r = if r = 0xF#4 then flag else if r = x then result else s.reg r := by
  simp [State.setRegFlag]

@[simp] theorem flagByte_toNat (c : Bool) : (flagByte c).toNat = if c then 1 else 0 := by cases c <;> rfl

@[simp] theorem addWrap_toNat (a b : Byte) : (addWrap a b).toNat = (a.toNat + b.toNat) % 256 := by simp [addWrap]

theorem subWrap_toNat (a b : Byte) : (subWrap a b).toNat =
    if a.toNat ≥ b.toNat then a.toNat - b.toNat else a.toNat + 256 - b.toNat := by
  have := a.isLt
  have := b.isLt
  simp only [subWrap, BitVec.toNat_ofNat]
  split <;> omega

theorem timerNext_toNat (due : Bool) (t : Byte) :
    (timerNext due t).toNat = if due then t.toNat - 1 else t.toNat := by
  have := t.isLt
  by_cases h : t = 0
  · subst h; cases due <;> rfl
  · have hn : t.toNat ≠ 0 := fun e => h (BitVec.eq_of_toNat_eq e)
    rw [timerNext, if_neg h, tickDown, if_neg h]
    cases due
    · rfl
    · simp only [if_true, BitVec.toNat_sub, show (1 : Byte).toNat = 1 from rfl]; omega

/-- The number a big-endian pair of bytes is (R64). -/
theorem bigEndian_toNat (hi lo : Byte) : (bigEndian hi lo).toNat = 256 * hi.toNat + lo.toNat := by
  have h1 := hi.isLt
  have h2 := lo.isLt
  simp only [bigEndian, BitVec.toNat_or, BitVec.toNat_shiftLeft, BitVec.toNat_setWidth]
  rw [Nat.mod_eq_of_lt (a := hi.toNat) (by omega), Nat.mod_eq_of_lt (a := lo.toNat) (by omega),
    Nat.mod_eq_of_lt (by rw [Nat.shiftLeft_eq]; omega), ← Nat.shiftLeft_add_eq_or_of_lt (by omega), Nat.shiftLeft_eq]
  omega

end Sys2Proof.Machine
end

