-- ==== Sys2Proof/Laws/Display.lean ====
section
/-! SUPPORT. What drawing sprite rows does to each pixel, and when it collides (R201). -/

namespace Sys2Proof.Machine

/-- A pixel after the sprite rows `bs` are drawn from column `x0` and row `py`: toggled exactly where a 1 bit lands. -/
theorem toggle_pixel (x0 : Nat) (bs : List Byte) : ∀ (d : Display) (py r c : Nat), r < 32 → c < 64 →
    Display.pixel (Display.toggle d x0 py bs) r c =
      (Display.pixel d r c ^^
        (decide (py ≤ r ∧ r < py + bs.length ∧ x0 ≤ c ∧ c < x0 + 8) && ((bs[r - py]?).getD 0).getMsbD (c - x0))) := by
  induction bs with
  | nil => intro d py r c hr hc; simp [Display.toggle]
  | cons b bs ih =>
    intro d py r c hr hc
    rw [Display.toggle]
    split
    · next hpy =>
      rw [ih _ _ _ _ hr hc]
      have hrow : Display.pixel (d.set py (d[py] ^^^ spriteRow b x0)) r c =
          (Display.pixel d r c ^^ (decide (r = py) && (decide (x0 ≤ c) && decide (c < x0 + 8) && b.getMsbD (c - x0)))) := by
        by_cases h : py = r
        · subst h; simp [Display.pixel, hr, spriteRow_getMsbD _ _ _ hc]
        · simp [Display.pixel, hr, h, Ne.symm h]
      rw [hrow]
      by_cases h : r = py
      · subst h
        simp [show ¬ (r + 1 ≤ r) by omega]
      · by_cases h2 : py + 1 ≤ r
        · have : r - py = (r - (py + 1)) + 1 := by omega
          simp only [this, List.getElem?_cons_succ, h, List.length_cons]
          simp [h2, show py ≤ r by omega, show r < py + 1 + bs.length ↔ r < py + (bs.length + 1) by omega]
        · simp [h, h2, show ¬ py ≤ r by omega]
    · next hpy =>
      rw [ih _ _ _ _ hr hc]
      simp [show ¬ py ≤ r by omega, show ¬ py + 1 ≤ r by omega]

/-- A draw collides exactly when a 1 bit lands on a lit pixel. -/
theorem collides_iff (d : Display) (x0 : Nat) (bs : List Byte) : ∀ (py : Nat),
    Display.collides d x0 py bs = true ↔ ∃ r c, r < 32 ∧ c < 64 ∧ Display.pixel d r c = true ∧
        (decide (py ≤ r ∧ r < py + bs.length ∧ x0 ≤ c ∧ c < x0 + 8) && ((bs[r - py]?).getD 0).getMsbD (c - x0)) = true := by
  induction bs with
  | nil =>
    intro py
    simp only [Display.collides, Bool.false_eq_true, false_iff]
    rintro ⟨r, c, -, -, -, h⟩
    simp at h
  | cons b bs ih =>
    intro py
    have tail : (∃ r c, r < 32 ∧ c < 64 ∧ Display.pixel d r c = true ∧
        (decide (py + 1 ≤ r ∧ r < py + 1 + bs.length ∧ x0 ≤ c ∧ c < x0 + 8) && ((bs[r - (py+1)]?).getD 0).getMsbD (c - x0)) = true)
        ↔ ∃ r c, r < 32 ∧ c < 64 ∧ r ≠ py ∧ Display.pixel d r c = true ∧
        (decide (py ≤ r ∧ r < py + (b :: bs).length ∧ x0 ≤ c ∧ c < x0 + 8) && (((b :: bs)[r - py]?).getD 0).getMsbD (c - x0)) = true := by
      constructor
      · rintro ⟨r, c, hr, hc, hp, h⟩
        simp only [Bool.and_eq_true, decide_eq_true_eq] at h
        refine ⟨r, c, hr, hc, by omega, hp, ?_⟩
        rw [show r - py = (r - (py + 1)) + 1 by omega, List.getElem?_cons_succ]
        simp only [Bool.and_eq_true, decide_eq_true_eq, List.length_cons]
        exact ⟨by omega, h.2⟩
      · rintro ⟨r, c, hr, hc, hne, hp, h⟩
        simp only [Bool.and_eq_true, decide_eq_true_eq, List.length_cons] at h
        rw [show r - py = (r - (py + 1)) + 1 by omega, List.getElem?_cons_succ] at h
        exact ⟨r, c, hr, hc, hp, by simp only [Bool.and_eq_true, decide_eq_true_eq]; exact ⟨by omega, h.2⟩⟩
    rw [Display.collides]
    split
    · next hpy =>
      rw [Bool.or_eq_true, ih, tail]
      have head : (d[py] &&& spriteRow b x0 != 0) = true ↔ ∃ c, c < 64 ∧ d[py].getMsbD c = true ∧
          (decide (x0 ≤ c) && decide (c < x0 + 8) && b.getMsbD (c - x0)) = true := by
        rw [bne_iff_ne, ne_eq, ← not_iff_not, not_not, not_exists]
        constructor
        · intro h c ⟨hc, h1, h2⟩
          rw [← spriteRow_getMsbD _ _ _ hc] at h2
          have := congrArg (fun v => v.getMsbD c) h
          simp [h1, h2] at this
        · intro h
          apply BitVec.eq_of_getMsbD_eq
          intro c hc
          have := h c
          rw [← spriteRow_getMsbD _ _ _ hc] at this
          simp at this ⊢
          exact this hc
      rw [head]
      constructor
      · rintro (⟨c, hc, h1, h2⟩ | ⟨r, c, hr, hc, -, hp, h⟩)
        · refine ⟨py, c, hpy, hc, by simpa [Display.pixel, hpy] using h1, ?_⟩
          simpa using h2
        · exact ⟨r, c, hr, hc, hp, h⟩
      · rintro ⟨r, c, hr, hc, hp, h⟩
        by_cases hrp : r = py
        · subst hrp
          left
          refine ⟨c, hc, by simpa [Display.pixel, hpy] using hp, ?_⟩
          simpa using h
        · exact .inr ⟨r, c, hr, hc, hrp, hp, h⟩
    · next hpy =>
      rw [ih, tail]
      constructor
      · rintro ⟨r, c, hr, hc, -, hp, h⟩; exact ⟨r, c, hr, hc, hp, h⟩
      · rintro ⟨r, c, hr, hc, hp, h⟩; exact ⟨r, c, hr, hc, by omega, hp, h⟩

/-- Displays with equal pixels are equal. -/
theorem display_ext {d e : Display} (h : ∀ r c, r < 32 → c < 64 → Display.pixel d r c = Display.pixel e r c) : d = e := by
  apply Vector.ext
  intro r hr
  apply BitVec.eq_of_getMsbD_eq
  intro c hc
  simpa [Display.pixel, hr] using h r c hr hc

end Sys2Proof.Machine
end

