-- ==== Sys2Proof/Laws/PerInstr.lean ====
section
/-! SUPPORT. Per-instruction laws about the encoding. OpcodeRow: the word of an instruction lies in the instruction's
own row of the opcode table (spec/30_encoding.md R94, R95). -/

namespace Sys2Proof.Laws.OpcodeRow

/-- The word's fixed bits are those of the row. -/
def Statement (i : Instr) : Prop := encode i &&& rowMask i = rowMatch i

theorem cls : Statement .cls := rfl

theorem ret : Statement .ret := rfl

theorem jump (nnn : Addr12) : Statement (.jump nnn) := by
  unfold Statement; ext i hi; interval_cases i <;> simp [encode, rowMask, rowMatch, wordNNN]

theorem call (nnn : Addr12) : Statement (.call nnn) := by
  unfold Statement; ext i hi; interval_cases i <;> simp [encode, rowMask, rowMatch, wordNNN]

theorem skipEqImm (x : Nibble) (nn : Byte) : Statement (.skipEqImm x nn) := by
  unfold Statement; ext i hi; interval_cases i <;> simp [encode, rowMask, rowMatch, wordXNN]

theorem skipNeqImm (x : Nibble) (nn : Byte) : Statement (.skipNeqImm x nn) := by
  unfold Statement; ext i hi; interval_cases i <;> simp [encode, rowMask, rowMatch, wordXNN]

theorem skipEqReg (x : Nibble) (y : Nibble) : Statement (.skipEqReg x y) := by
  unfold Statement; ext i hi; interval_cases i <;> simp [encode, rowMask, rowMatch, wordXY]

theorem skipNeqReg (x : Nibble) (y : Nibble) (n : Nibble) : Statement (.skipNeqReg x y n) := by
  unfold Statement; ext i hi; interval_cases i <;> simp [encode, rowMask, rowMatch, wordXYN, wordXY]

theorem loadImm (x : Nibble) (nn : Byte) : Statement (.loadImm x nn) := by
  unfold Statement; ext i hi; interval_cases i <;> simp [encode, rowMask, rowMatch, wordXNN]

theorem addImm (x : Nibble) (nn : Byte) : Statement (.addImm x nn) := by
  unfold Statement; ext i hi; interval_cases i <;> simp [encode, rowMask, rowMatch, wordXNN]

theorem loadReg (x : Nibble) (y : Nibble) : Statement (.loadReg x y) := by
  unfold Statement; ext i hi; interval_cases i <;> simp [encode, rowMask, rowMatch, wordXY]

theorem orReg (x : Nibble) (y : Nibble) : Statement (.orReg x y) := by
  unfold Statement; ext i hi; interval_cases i <;> simp [encode, rowMask, rowMatch, wordXY]

theorem andReg (x : Nibble) (y : Nibble) : Statement (.andReg x y) := by
  unfold Statement; ext i hi; interval_cases i <;> simp [encode, rowMask, rowMatch, wordXY]

theorem xorReg (x : Nibble) (y : Nibble) : Statement (.xorReg x y) := by
  unfold Statement; ext i hi; interval_cases i <;> simp [encode, rowMask, rowMatch, wordXY]

theorem addReg (x : Nibble) (y : Nibble) : Statement (.addReg x y) := by
  unfold Statement; ext i hi; interval_cases i <;> simp [encode, rowMask, rowMatch, wordXY]

theorem subReg (x : Nibble) (y : Nibble) : Statement (.subReg x y) := by
  unfold Statement; ext i hi; interval_cases i <;> simp [encode, rowMask, rowMatch, wordXY]

theorem shr (x : Nibble) (y : Nibble) : Statement (.shr x y) := by
  unfold Statement; ext i hi; interval_cases i <;> simp [encode, rowMask, rowMatch, wordXY]

theorem subnReg (x : Nibble) (y : Nibble) : Statement (.subnReg x y) := by
  unfold Statement; ext i hi; interval_cases i <;> simp [encode, rowMask, rowMatch, wordXY]

theorem shl (x : Nibble) (y : Nibble) : Statement (.shl x y) := by
  unfold Statement; ext i hi; interval_cases i <;> simp [encode, rowMask, rowMatch, wordXY]

theorem setI (nnn : Addr12) : Statement (.setI nnn) := by
  unfold Statement; ext i hi; interval_cases i <;> simp [encode, rowMask, rowMatch, wordNNN]

theorem jumpOffset (nnn : Addr12) : Statement (.jumpOffset nnn) := by
  unfold Statement; ext i hi; interval_cases i <;> simp [encode, rowMask, rowMatch, wordNNN]

theorem random (x : Nibble) (nn : Byte) : Statement (.random x nn) := by
  unfold Statement; ext i hi; interval_cases i <;> simp [encode, rowMask, rowMatch, wordXNN]

theorem draw (x : Nibble) (y : Nibble) (n : Nibble) : Statement (.draw x y n) := by
  unfold Statement; ext i hi; interval_cases i <;> simp [encode, rowMask, rowMatch, wordXYN, wordXY]

theorem skipKey (x : Nibble) : Statement (.skipKey x) := by
  unfold Statement; ext i hi; interval_cases i <;> simp [encode, rowMask, rowMatch, wordX]

theorem skipNotKey (x : Nibble) : Statement (.skipNotKey x) := by
  unfold Statement; ext i hi; interval_cases i <;> simp [encode, rowMask, rowMatch, wordX]

theorem loadDelay (x : Nibble) : Statement (.loadDelay x) := by
  unfold Statement; ext i hi; interval_cases i <;> simp [encode, rowMask, rowMatch, wordX]

theorem waitKey (x : Nibble) : Statement (.waitKey x) := by
  unfold Statement; ext i hi; interval_cases i <;> simp [encode, rowMask, rowMatch, wordX]

theorem setDelay (x : Nibble) : Statement (.setDelay x) := by
  unfold Statement; ext i hi; interval_cases i <;> simp [encode, rowMask, rowMatch, wordX]

theorem setSound (x : Nibble) : Statement (.setSound x) := by
  unfold Statement; ext i hi; interval_cases i <;> simp [encode, rowMask, rowMatch, wordX]

theorem addI (x : Nibble) : Statement (.addI x) := by
  unfold Statement; ext i hi; interval_cases i <;> simp [encode, rowMask, rowMatch, wordX]

theorem setIFont (x : Nibble) : Statement (.setIFont x) := by
  unfold Statement; ext i hi; interval_cases i <;> simp [encode, rowMask, rowMatch, wordX]

theorem storeBcd (x : Nibble) : Statement (.storeBcd x) := by
  unfold Statement; ext i hi; interval_cases i <;> simp [encode, rowMask, rowMatch, wordX]

theorem storeRegs (x : Nibble) : Statement (.storeRegs x) := by
  unfold Statement; ext i hi; interval_cases i <;> simp [encode, rowMask, rowMatch, wordX]

theorem loadRegs (x : Nibble) : Statement (.loadRegs x) := by
  unfold Statement; ext i hi; interval_cases i <;> simp [encode, rowMask, rowMatch, wordX]

end Sys2Proof.Laws.OpcodeRow
end

