-- ==== Sys2Proof/Machine/Assembly.lean ====
section
/-! DEFINITION. The assembly text of an instruction and of the two directives the spec's listings use
(spec/30_encoding.md R105, R106). Text carries no semantics (decision D25): the machine runs words alone. -/

namespace Sys2Proof.Machine

/-- A register number as one hexadecimal digit. -/
def hexDigit (x : Nibble) : String :=
  (["0", "1", "2", "3", "4", "5", "6", "7", "8", "9", "A", "B", "C", "D", "E", "F"][x.toNat]?).getD ""

/-- `V0` to `VF`. -/
def registerName (x : Nibble) : String := "V" ++ hexDigit x

/-- `Vx,Vy` -/
def twoRegisters (x y : Nibble) : String := registerName x ++ "," ++ registerName y

/-- `Vx,nn`, the number in decimal. -/
def registerNumber (x : Nibble) (nn : Byte) : String := registerName x ++ "," ++ toString nn.toNat

/-- The canonical text of an instruction (R105); an ignored field is not written. -/
def assemblyText : Instr → String
  | .cls => "clear-screen"
  | .ret => "return"
  | .jump nnn => "jump " ++ toString nnn.toNat
  | .call nnn => "call " ++ toString nnn.toNat
  | .skipEqImm x nn => "skip-eq " ++ registerNumber x nn
  | .skipNeqImm x nn => "skip-neq " ++ registerNumber x nn
  | .skipEqReg x y => "skip-eq " ++ twoRegisters x y
  | .skipNeqReg x y _ => "skip-neq " ++ twoRegisters x y
  | .loadImm x nn => "load " ++ registerNumber x nn
  | .addImm x nn => "add " ++ registerNumber x nn
  | .loadReg x y => "load " ++ twoRegisters x y
  | .orReg x y => "or " ++ twoRegisters x y
  | .andReg x y => "and " ++ twoRegisters x y
  | .xorReg x y => "xor " ++ twoRegisters x y
  | .addReg x y => "add " ++ twoRegisters x y
  | .subReg x y => "sub " ++ twoRegisters x y
  | .shr x _ => "shr " ++ registerName x
  | .subnReg x y => "subn " ++ twoRegisters x y
  | .shl x _ => "shl " ++ registerName x
  | .setI nnn => "set I," ++ toString nnn.toNat
  | .jumpOffset nnn => "jump+offset " ++ toString nnn.toNat
  | .random x nn => "random " ++ registerNumber x nn
  | .draw x y n => "draw " ++ twoRegisters x y ++ "," ++ toString n.toNat
  | .skipKey x => "skip-key-pressed " ++ registerName x
  | .skipNotKey x => "skip-key-not-pressed " ++ registerName x
  | .loadDelay x => "load " ++ registerName x ++ ",delay"
  | .waitKey x => "wait-key " ++ registerName x
  | .setDelay x => "set delay," ++ registerName x
  | .setSound x => "set sound," ++ registerName x
  | .addI x => "add I," ++ registerName x
  | .setIFont x => "set I,font(" ++ registerName x ++ ")"
  | .storeBcd x => "store-BCD " ++ registerName x
  | .storeRegs x => "store-regs V0.." ++ registerName x
  | .loadRegs x => "load-regs V0.." ++ registerName x

/-- A line of a listing: an instruction, or one of the two directives (R106). -/
inductive Line where
  | instr (i : Instr)
  /-- `byte b0,b1,...`: literal bytes. -/
  | byte (bytes : List Byte)
  /-- `word 0xNNNN`: a word, high byte first. -/
  | word (w : Word)
  deriving DecidableEq, Repr

/-- The bytes a line places in the image. -/
def lineBytes : Line → List Byte
  | .instr i => encodeBytes i
  | .byte bytes => bytes
  | .word w => [highByte w, lowByte w]

/-- The image of a listing whose first line stands at the load address. -/
def assemble (lines : List Line) : List Byte := lines.flatMap lineBytes

end Sys2Proof.Machine
end

