-- ==== Sys2Proof/Tests/Slice0.lean ====
section
/-! SUPPORT. Small tests, each on one step or one word. Expected values are the spec's own: the vectors of
spec/95_test_vectors.md (named in each docstring) and the encodings of spec/30_encoding.md R95. -/

namespace Sys2Proof.Tests

open Sys2Proof.Machine

/-! Helpers. -/

/-- One cycle at time 0, so no tick is due, with word `w` at `pc`. -/
def run (w : Word) (s : State) : Result := cycle 0 (s.placeWord w)

/-- A field of the next state, if the outcome is one. -/
def after {α : Type} (o : Result) (g : State → α) : Option α :=
  match o with
  | .next t => some (g t)
  | .fault _ => none
  | .refused _ => none

/-- The fault, if the outcome is one. -/
def faultOf (o : Result) : Option Fault :=
  match o with
  | .next _ => none
  | .fault f => some f
  | .refused _ => none

/-- The reset state with V1, V2 and VF as given. -/
def regs (a b f : Byte) : State := ((State.reset.setReg 1 a).setReg 2 b).setVF f

/-- V1 and VF. -/
def v1f (s : State) : Byte × Byte := (s.reg 1, s.reg 0xF)

/-- The reset state with `I` and the bytes there as given. -/
def dataAt (i : Word) (bytes : List Byte) : State := (State.reset.withI i).placeBytes i.toNat bytes

/-- The lit pixels of row `r`. -/
def litColumns (r : Nat) (s : State) : List Nat := (List.range 64).filter fun c => Display.pixel s.disp r c

/-! Well-formedness: one ill-formed term for each check. -/

theorem test_wellFormed_skipNeqReg_nibble : Instr.wellFormed (.skipNeqReg 1 2 5) = false := by decide
theorem test_wellFormed_shr_y : Instr.wellFormed (.shr 1 3) = false := by decide
theorem test_wellFormed_shl_y : Instr.wellFormed (.shl 1 1) = false := by decide
theorem test_wellFormed_accepts : Instr.wellFormed (.skipNeqReg 1 2 0) = true ∧ Instr.wellFormed (.shr 1 0) = true ∧
    Instr.wellFormed (.shl 1 0) = true ∧ Instr.wellFormed (.draw 0xF 0xF 0xF) = true := by decide

/-! Decoding: every constructor, by a word written out bit by bit from R95. -/

theorem test_decode_0_to_4 :
    [0b0000000011100000#16, 0b0000000011101110#16, 0b0001001000110100#16, 0b0010001100000000#16,
      0b0011001100101010#16, 0b0100001100101011#16].map decodeWord =
    [.instr .cls, .instr .ret, .instr (.jump 0x234), .instr (.call 0x300), .instr (.skipEqImm 3 0x2A),
      .instr (.skipNeqImm 3 0x2B)] := by decide
theorem test_decode_5_9 :
    [0b0101000100100000#16, 0b1001000100100000#16, 0b1001000100100101#16].map decodeWord =
    [.instr (.skipEqReg 1 2), .instr (.skipNeqReg 1 2 0), .instr (.skipNeqReg 1 2 5)] := by decide
theorem test_decode_6_7 :
    [0b0110101000000101#16, 0b0111101000000011#16].map decodeWord =
    [.instr (.loadImm 0xA 5), .instr (.addImm 0xA 3)] := by decide
theorem test_decode_8 :
    [0b1000000100100000#16, 0b1000000100100001#16, 0b1000000100100010#16, 0b1000000100100011#16,
      0b1000000100100100#16, 0b1000000100100101#16, 0b1000000100000110#16, 0b1000000100100111#16,
      0b1000000100001110#16].map decodeWord =
    [.instr (.loadReg 1 2), .instr (.orReg 1 2), .instr (.andReg 1 2), .instr (.xorReg 1 2), .instr (.addReg 1 2),
      .instr (.subReg 1 2), .instr (.shr 1 0), .instr (.subnReg 1 2), .instr (.shl 1 0)] := by decide
theorem test_decode_A_to_D :
    [0b1010001011110000#16, 0b1011001100000000#16, 0b1100001100001111#16, 0b1101000100100101#16].map decodeWord =
    [.instr (.setI 0x2F0), .instr (.jumpOffset 0x300), .instr (.random 3 0x0F), .instr (.draw 1 2 5)] := by decide
theorem test_decode_E :
    [0b1110001010011110#16, 0b1110001010100001#16].map decodeWord =
    [.instr (.skipKey 2), .instr (.skipNotKey 2)] := by decide
theorem test_decode_F :
    [0b1111001100000111#16, 0b1111010100001010#16, 0b1111001100010101#16, 0b1111001100011000#16,
      0b1111001000011110#16, 0b1111000000101001#16, 0b1111000000110011#16, 0b1111001001010101#16,
      0b1111001001100101#16].map decodeWord =
    [.instr (.loadDelay 3), .instr (.waitKey 5), .instr (.setDelay 3), .instr (.setSound 3), .instr (.addI 2),
      .instr (.setIFont 0), .instr (.storeBcd 0), .instr (.storeRegs 2), .instr (.loadRegs 2)] := by decide
/-- R102, B1.1 to B1.6: unknown words of every family that has some. -/
theorem test_decode_unknown :
    [0x0000#16, 0x0123#16, 0x00E1#16, 0x0FFF#16, 0x5121#16, 0x8128#16, 0x812F#16, 0xE100#16, 0xF1FF#16].map decodeWord =
    [.unknown 0x0000, .unknown 0x0123, .unknown 0x00E1, .unknown 0x0FFF, .unknown 0x5121, .unknown 0x8128,
      .unknown 0x812F, .unknown 0xE100, .unknown 0xF1FF] := by decide
/-- The byte at the lower address is the high byte (R64). -/
theorem test_decode_bytes : decodeTableWord 16 0x6A05 = some (.loadImm 0xA 5) ∧ decodeTableWord 16 0x5121 = none := by
  decide

/-- The two texts §8 shows, and program C1 of part C: text to image. -/
theorem test_assembly : assemblyText (.loadImm 0xA 5) = "load VA,5" ∧ assemblyText (.addImm 0xA 3) = "add VA,3" ∧
    assemble [.instr (.loadImm 0xA 5), .instr (.addReg 0xA 0xB), .instr (.jump 0x20A), .word 0x0123, .byte [0xFF]] =
      [0x6A, 0x05, 0x8A, 0xB4, 0x12, 0x0A, 0x01, 0x23, 0xFF] := by decide

/-! The cycle. -/

/-- B1.1. -/
theorem test_unknown_nop : after (run 0x0000 State.reset) State.pc = some 0x202 ∧
    State.reset.diagnostic = some 0x0000 := by decide
/-- B1.7 and B2.19's second cycle. -/
theorem test_fetch_fault : faultOf (run 0x0000 (State.reset.withPc 0xFFF)) = some (.memBounds 0x1000) ∧
    faultOf (run 0x0000 (State.reset.withPc 0x10FE)) = some (.memBounds 0x10FE) := by decide
/-- B1.8 and B1.9: the last word of memory, and an odd `pc`. -/
theorem test_fetch_edges : after (run 0x6A05 (State.reset.withPc 0xFFE)) (fun t => (t.reg 0xA, t.pc)) = some (5, 0x1000) ∧
    after (run 0x6A05 (State.reset.withPc 0x201)) (fun t => (t.reg 0xA, t.pc)) = some (5, 0x203) := by decide
/-- B1.11, B1.12: the tick comes before the instruction. -/
theorem test_tick_first :
    after (cycle 20000000 (((State.reset.withDT 5).withST 2).placeWord 0xF107))
      (fun t => (t.reg 1, t.DT, t.ST)) = some (4, 4, 1) ∧
    after (cycle 20000000 (((State.reset.withDT 5).setReg 1 9).placeWord 0xF115)) State.DT = some 9 := by decide
/-- B1.14, B1.15: 50 ms is one tick, 10 ms is none. -/
theorem test_timer_gate :
    after (cycle 50000000 (State.reset.withDT 3)) (fun t => (t.DT, t.ST, t.tRef)) = some (2, 0, 50000000) ∧
    after (cycle 10000000 (State.reset.withDT 3)) (fun t => (t.DT, t.tRef)) = some (3, 0) := by decide
/-- B1.13. -/
theorem test_halted : step (State.reset.withHalted (some .keyIndex)) = .next (State.reset.withHalted (some .keyIndex)) := by
  rfl
/-- `step` itself, whatever time it samples: §8's first word. -/
theorem test_step_loads : after (step (State.reset.withFetchWord 16 0x6A05)) (fun t => (t.reg 0xA, t.pc)) =
    some (5, 0x202) := by decide

/-! Control flow. -/

/-- B2.7, B2.6. -/
theorem test_ret : after (run 0x00EE (State.reset.withStack [0x30A, 0x202])) (fun t => (t.pc, t.stack)) =
    some (0x30A, [0x202]) := by decide
theorem test_ret_empty : faultOf (run 0x00EE State.reset) = some (.emptyStackReturn 0x200) := by decide
/-- B2.1. -/
theorem test_jump : after (run 0x1234 State.reset) State.pc = some 0x234 := by decide
/-- B2.4; a configured limit (R142). -/
theorem test_call : after (run 0x2300 State.reset) (fun t => (t.pc, t.stack)) = some (0x300, [0x202]) := by decide
theorem test_call_limit : faultOf (run 0x2300 (State.initial { defaultParams with stackLimit := some 0 } 0)) =
    some (.stackLimit 0x200) := by decide
/-- B2.8, B2.9. -/
theorem test_skipEqImm : after (run 0x332A (State.reset.setReg 3 0x2A)) State.pc = some 0x204 ∧
    after (run 0x332B (State.reset.setReg 3 0x2A)) State.pc = some 0x202 := by decide
/-- B2.10, B2.11. -/
theorem test_skipNeqImm : after (run 0x432A (State.reset.setReg 3 0x2A)) State.pc = some 0x202 ∧
    after (run 0x432B (State.reset.setReg 3 0x2A)) State.pc = some 0x204 := by decide
/-- B2.12, B2.13. -/
theorem test_skipEqReg : after (run 0x5120 (regs 7 7 0)) State.pc = some 0x204 ∧
    after (run 0x5120 (regs 7 8 0)) State.pc = some 0x202 := by decide
/-- B2.16, B2.17. -/
theorem test_skipNeqReg : after (run 0x9120 (regs 7 7 0)) State.pc = some 0x202 ∧
    after (run 0x9125 (regs 7 8 0)) State.pc = some 0x204 := by decide
/-- B2.19. -/
theorem test_jumpOffset : after (run 0xBFFF (State.reset.setReg 0 0xFF)) State.pc = some 0x10FE := by decide

/-! Load, add, ALU: V1 and VF after. -/

/-- B3.2. -/
theorem test_loadImm : after (run 0x6F07 State.reset) (fun t => t.reg 0xF) = some 7 := by decide
/-- B3.4. -/
theorem test_addImm : after (run 0x7101 (regs 0xFF 0 1)) v1f = some (0x00, 1) := by decide
/-- B3.6. -/
theorem test_loadReg : after (run 0x8120 (regs 0 0x7C 1)) v1f = some (0x7C, 1) := by decide
/-- B3.7. -/
theorem test_orReg : after (run 0x8121 (regs 0xF0 0x0F 1)) v1f = some (0xFF, 1) := by decide
/-- B3.8. -/
theorem test_andReg : after (run 0x8122 (regs 0xF0 0x3C 1)) v1f = some (0x30, 1) := by decide
/-- B3.9. -/
theorem test_xorReg : after (run 0x8123 (regs 0xF0 0x3C 1)) v1f = some (0xCC, 1) := by decide
/-- B3.14, B3.15; B3.33, B3.35. -/
theorem test_addReg : after (run 0x8124 (regs 0xFF 0xFF 0)) v1f = some (0xFE, 1) ∧
    after (run 0x8124 (regs 0x80 0x7F 1)) v1f = some (0xFF, 0) := by decide
theorem test_addReg_VF : after (run 0x8F24 (regs 0 0x20 0xF0)) v1f = some (0, 1) ∧
    after (run 0x81F4 (regs 0x10 0 1)) v1f = some (0x11, 0) := by decide
/-- B3.18, B3.19; B3.39, B3.40. -/
theorem test_subReg : after (run 0x8125 (regs 5 7 1)) v1f = some (0xFE, 0) ∧
    after (run 0x8125 (regs 7 7 0)) v1f = some (0, 1) := by decide
theorem test_subReg_VF : after (run 0x8F25 (regs 0 3 5)) v1f = some (0, 1) ∧
    after (run 0x8FF5 (regs 0 0 5)) v1f = some (0, 1) := by decide
/-- B3.25; B3.37. -/
theorem test_shr : after (run 0x8126 (regs 5 0xAA 0)) (fun t => (v1f t, t.reg 2)) = some ((2, 1), 0xAA) := by decide
theorem test_shr_VF : after (run 0x8F06 (regs 0 0 2)) v1f = some (0, 0) := by decide
/-- B3.26, B3.27. -/
theorem test_subnReg : after (run 0x8127 (regs 5 7 0)) v1f = some (2, 1) ∧
    after (run 0x8127 (regs 7 5 1)) v1f = some (0xFE, 0) := by decide
/-- B3.32, B3.30; B3.38. -/
theorem test_shl : after (run 0x810E (regs 0xFF 0 0)) v1f = some (0xFE, 1) ∧
    after (run 0x810E (regs 0x40 0 1)) v1f = some (0x80, 0) := by decide
theorem test_shl_VF : after (run 0x8F0E (regs 0 0 0x80)) v1f = some (0, 1) := by decide

/-! Index and memory. -/

/-- B4.1. -/
theorem test_setI : after (run 0xA2F0 State.reset) State.I = some 0x2F0 := by decide
/-- B4.3, B4.4. -/
theorem test_addI : after (run 0xF21E ((regs 0 1 0).withI 0xFFF)) State.I = some 0x1000 ∧
    after (run 0xF21E ((regs 0 2 1).withI 0xFFFF)) (fun t => (t.I, t.reg 0xF)) = some (1, 1) := by decide
/-- B4.5, B4.6. -/
theorem test_setIFont : after (run 0xF029 (State.reset.setReg 0 2)) State.I = some 0x5A ∧
    after (run 0xF029 (State.reset.setReg 0 0x1A)) State.I = some 0x82 := by decide
/-- B4.8; B4.18, B4.20. -/
theorem test_storeBcd : after (run 0xF033 ((State.reset.setReg 0 0xEA).withI 0x300))
    (fun t => (t.byteAt 0x300, t.byteAt 0x301, t.byteAt 0x302, t.I)) = some (2, 3, 4, 0x300) := by decide
theorem test_storeBcd_faults : faultOf (run 0xF033 (State.reset.withI 0x100)) = some (.reservedWrite 0x100) ∧
    faultOf (run 0xF033 (State.reset.withI 0xFFE)) = some (.memBounds 0x1000) := by decide
/-- B4.13; B4.19. -/
theorem test_storeRegs : after (run 0xF255 (((regs 0x22 0x33 0).setReg 0 0x11).withI 0x400))
    (fun t => (t.byteAt 0x400, t.byteAt 0x401, t.byteAt 0x402, t.byteAt 0x403, t.I)) =
    some (0x11, 0x22, 0x33, 0, 0x400) := by decide
theorem test_storeRegs_fault : faultOf (run 0xF155 (State.reset.withI 0x1FF)) = some (.reservedWrite 0x1FF) := by decide
/-- B4.16; B4.21, and B4.17 (the font is readable). -/
theorem test_loadRegs : after (run 0xF265 ((dataAt 0x300 [2, 3, 4]).setReg 3 0x99))
    (fun t => (t.reg 0, t.reg 1, t.reg 2, t.reg 3, t.I)) = some (2, 3, 4, 0x99, 0x300) := by decide
theorem test_loadRegs_edges : faultOf (run 0xF165 (State.reset.withI 0xFFF)) = some (.memBounds 0x1000) ∧
    after (run 0xF465 (State.reset.withI 0x50)) (fun t => t.V.toList.take 5) =
      some [0xF0, 0x90, 0x90, 0x90, 0xF0] := by decide
/-- Writing the value an unlisted address reads as removes the cell. -/
theorem test_memory_canonical : ((State.reset.setByte 0x300 7).setByte 0x300 0).mem = [] := by decide

/-! Display. -/

/-- B5.1. -/
theorem test_cls : after (run 0x00E0 ((State.reset.withDisp (blankDisplay.set 3 0x0400000000000000)).setVF 1))
    (fun t => (t.disp, t.reg 0xF, t.dirty)) = some (blankDisplay, 1, false) := by decide
/-- B5.4: columns past 63 are clipped. -/
theorem test_draw_clip : after (run 0xD011 ((dataAt 0x300 [0xFF]).setReg 0 62))
    (fun t => (litColumns 0 t, t.reg 0xF, t.dirty)) = some ([62, 63], 0, true) := by decide
/-- B5.10 and B5.16: a collision with one fresh pixel; the origin from the old VF. -/
theorem test_draw_collision :
    after (run 0xD011 ((dataAt 0x300 [0xC0]).withDisp (blankDisplay.set 0 0x8000000000000000)))
      (fun t => (litColumns 0 t, t.reg 0xF)) = some ([1], 1) ∧
    after (run 0xDF11 ((dataAt 0x300 [0x80]).setVF 5)) (fun t => (litColumns 0 t, t.reg 0xF)) = some ([5], 0) := by decide

/-! Keys, timers, random. -/

/-- B6.1, B6.2; B6.5. -/
theorem test_skipKey : after (run 0xE29E ((regs 0 0xA 0).setKeys [10])) State.pc = some 0x204 ∧
    after (run 0xE29E (regs 0 0xA 0)) State.pc = some 0x202 := by decide
theorem test_skipKey_fault : faultOf (run 0xE29E (regs 0 0x10 0)) = some (.keyIndex 0x10) := by decide
/-- B6.3, B6.4; B6.6. -/
theorem test_skipNotKey : after (run 0xE2A1 (regs 0 0xA 0)) State.pc = some 0x204 ∧
    after (run 0xE2A1 ((regs 0 0xA 0).setKeys [10])) State.pc = some 0x202 := by decide
theorem test_skipNotKey_fault : faultOf (run 0xE2A1 (regs 0 0xFF 0)) = some (.keyIndex 0xFF) := by decide
/-- B6.9, B6.8. -/
theorem test_waitKey : after (run 0xF50A (State.reset.setKeys [3, 7])) (fun t => (t.reg 5, t.pc)) = some (3, 0x202) := by
  decide
theorem test_waitKey_replay : after (run 0xF50A (State.reset.setReg 5 0x99)) (fun t => (t.reg 5, t.pc)) =
    some (0x99, 0x200) := by decide
/-- B6.15. -/
theorem test_loadDelay : after (run 0xF307 (State.reset.withDT 0x1E)) (fun t => t.reg 3) = some 0x1E := by decide
/-- B6.16. -/
theorem test_setDelay : after (run 0xF315 (State.reset.setReg 3 0x3C)) (fun t => (t.DT, t.ST)) = some (0x3C, 0) := by decide
/-- B6.17. -/
theorem test_setSound : after (run 0xF318 (State.reset.setReg 3 2)) (fun t => (t.ST, t.beep)) = some (2, true) := by decide
/-- B6.20; the draw is used up, one of the cycle and one of the instruction. -/
theorem test_random : (randomWith 0xB7 3 0x0F State.reset).reg 3 = 7 := by decide
theorem test_random_draws : after (run 0xC30F State.reset) (fun t => (t.pc, t.draws)) = some (0x202, 2) := by decide

/-! Reset and ports. -/

/-- B7.3 and an unreadable image. -/
theorem test_construct_faults : faultOf (construct defaultParams 0 (some (List.replicate 3585 0))) = some (.imageTooLarge 3585) ∧
    faultOf (construct defaultParams 0 none) = some .imageReadFailure := by
  constructor
  · rw [construct, List.length_replicate]; rfl
  · rfl
/-- B7.4. -/
theorem test_construct : after (construct defaultParams 0 (some [0x12, 0x34, 0x56]))
    (fun t => ([t.byteAt 0x200, t.byteAt 0x201, t.byteAt 0x202, t.byteAt 0x203, t.byteAt 0x50, t.byteAt 0x54], t.pc)) =
    some ([0x12, 0x34, 0x56, 0, 0xF0, 0xF0], 0x200) := by decide
/-- B6.13, B6.14. -/
theorem test_setKeys : ((State.reset.setKeys [1, 2]).setKeys [2]).keys = (State.reset.setKeys [2]).keys ∧
    (State.reset.setKeys [3, 16, 200, -1]).keys.toList.findIdx? (fun k => k) = some 3 := by decide
/-- R241: the codes 1 to 7. -/
theorem test_fault_codes : [FaultCode.emptyStackReturn, .imageTooLarge, .imageReadFailure, .memBounds, .reservedWrite,
    .keyIndex, .stackLimit].map faultNumber = [1, 2, 3, 4, 5, 6, 7] := by decide

/-! Witnesses: for every statement with hypotheses, a state and operands that meet all of them, one for each clause, at
the boundary values of its range. -/

/-- The reset state with `PROTECT_LOW` off. -/
def unprotected : State := State.initial { defaultParams with protectLow := false } 0

/-- The reset state with a stack limit. -/
def limited (k : Nat) : State := State.initial { defaultParams with stackLimit := some k } 0

theorem test_reset_inv : State.reset.Inv ∧ State.reset.ReservedIntact ∧ Memory.wf State.reset.params State.reset.mem = true :=
  ⟨⟨rfl, by decide, by intro v hv; cases hv⟩, fun _ _ => rfl, rfl⟩

theorem test_witness_EncodeOfDecode : decodeWord 0x0FFF = .unknown 0x0FFF ∧ decodeWord 0xFFFF = .unknown 0xFFFF ∧
    decodeWord 0x9FFF = .instr (.skipNeqReg 0xF 0xF 0xF) := by decide
theorem test_witness_DecodeSelectsTheRow : 0x9125 &&& rowMask (.skipNeqReg 1 2 5) = rowMatch (.skipNeqReg 1 2 5) ∧
    ∀ i, 0x0123 &&& rowMask i ≠ rowMatch i := by
  refine ⟨by decide, fun i => ?_⟩
  cases i <;> simp only [rowMask, rowMatch] <;> decide

/-- `StepRunsDecodedInstruction`, `TickBeforeExecute`: at 0x200 and at the last word of memory. -/
theorem test_witness_decoded_word (s : State) (w : Word) (i : Instr)
    (h : (s, w, i) = (State.reset, 0xF107, .loadDelay 1) ∨ (s, w, i) = (State.reset.withPc 0xFFE, 0xF115, .setDelay 1)) :
    (s.placeWord w).halted = none ∧ (s.placeWord w).pc.toNat ≤ 0xFFE ∧
      decodeWord (bigEndian ((s.placeWord w).byteAt s.pc.toNat) ((s.placeWord w).byteAt (s.pc.toNat + 1))) = .instr i := by
  rcases h with h | h <;> cases h <;> decide
/-- `UnknownOpcodeIsNoOp`. -/
theorem test_witness_unknown : State.reset.halted = none ∧ State.reset.pc.toNat ≤ 0xFFE ∧
    decodeWord (bigEndian (State.reset.byteAt State.reset.pc.toNat) (State.reset.byteAt (State.reset.pc.toNat + 1))) =
      .unknown 0 := by decide
/-- `FetchReadsOrFaults`: 0xFFE, 0xFFF, 0x1000. -/
theorem test_witness_fetch : (State.reset.withPc 0xFFE).pc.toNat ≤ 0xFFE ∧ 0xFFE < (State.reset.withPc 0xFFF).pc.toNat ∧
    0xFFF < (State.reset.withPc 0x1000).pc.toNat ∧ (State.reset.withPc 0x1000).halted = none := by decide
/-- `TimerGateTicks`: the first nanosecond at which 1/60 second has passed, and the last at which it has not. -/
theorem test_witness_timerGate : State.reset.params.clockHz ≤ 60 * (16666667 - State.reset.tRef) ∧
    60 * (16666666 - State.reset.tRef) < State.reset.params.clockHz := by decide
/-- `HaltedMachineDoesNotStep`. -/
theorem test_witness_halted : (State.reset.withHalted (some .keyIndex)).halted = some .keyIndex := rfl
/-- `ConstructLoadsImage`: the largest image, the next size, an index into the image and one into the font. -/
theorem test_witness_construct : (List.replicate 3584 (0 : Byte)).length ≤ 3584 ∧ 3584 < (List.replicate 3585 (0 : Byte)).length ∧
    3583 < (List.replicate 3584 (0 : Byte)).length ∧ 79 < 80 := by simp only [List.length_replicate]; decide
/-- `CycleKeepsInvariant`, `StepKeepsInvariant`, `ReservedRangeNeverWritten`, `CycleKeepsKeysParamsLatch`: a store at the
lowest address that may be written. -/
theorem test_witness_cycle : ∃ s t, s.Inv ∧ s.ReservedIntact ∧ s.params.protectLow = true ∧ cycle 0 s = .next t ∧
    t.byteAt 0x200 = 0x77 :=
  ⟨((State.reset.setReg 0 0x77).withI 0x200).placeWord 0xF055, _,
    ⟨rfl, by decide, by intro v hv; cases hv⟩,
    fun a ha => placeBytes_other [0xF0, 0x55] (a := 0x200) fun k _ => by omega, rfl, rfl, by decide⟩
theorem test_witness_step : ∃ s t, s.Inv ∧ step s = .next t ∧ t.stack = [0x202] :=
  ⟨State.reset.placeWord 0x2300, _, ⟨rfl, by decide, by intro v hv; cases hv⟩, rfl, rfl⟩
/-- `FaultLatchesForever`. -/
theorem test_witness_step_fault : step (State.reset.withPc 0xFFF) = .fault (.memBounds 0x1000) := by rfl
/-- `ExecFaultsExactlyWhen`, both sides, where they depend on the state. -/
theorem test_witness_obeys : Obeys (State.reset.withStack [0x202]) .ret ∧ Obeys (limited 1) (.call 0x300) ∧
    Obeys (regs 0xF 0 0) (.skipKey 1) ∧ Obeys (regs 0xF 0 0) (.skipNotKey 1) := by
  refine ⟨by simp [Obeys], by simp [Obeys, limited, State.initial], show _ ≤ _ by decide, show _ ≤ _ by decide⟩
theorem test_witness_breaks : ¬ Obeys State.reset .ret ∧ ¬ Obeys (limited 0) (.call 0x300) ∧
    ¬ Obeys (regs 0x10 0 0) (.skipKey 1) ∧ ¬ Obeys (regs 0x10 0 0) (.skipNotKey 1) := by
  refine ⟨by simp [Obeys, State.reset, State.initial], by simp [Obeys, limited, State.initial], show ¬ _ ≤ _ by decide,
    show ¬ _ ≤ _ by decide⟩
/-- `ExecWritesOnlyItsParts`, `HiddenStateUnread`, `CallThenReturnRestores`: a next state and a fault. -/
theorem test_witness_exec : (∃ t, exec (.call 0x300) State.reset = .next t) ∧
    exec .ret State.reset = .fault (.emptyStackReturn 0x1FE) := ⟨⟨_, rfl⟩, rfl⟩
/-- `SelfJumpStaysEnded`: a self-jump at the load address. -/
theorem test_witness_ended : (State.reset.placeWord 0x1200).EndedAt 0x200 := ⟨rfl, rfl, rfl⟩
/-- `StoreSeenByNextFetch`: at the last word of memory. -/
theorem test_witness_store_fetch : ∃ s t, s.I = s.pc ∧ s.pc = 0xFFE ∧ Memory.wf s.params s.mem = true ∧
    exec (.storeRegs 1) s = .next t := ⟨((regs 0x0C 0 0).withI 0xFFE).withPc 0xFFE, _, rfl, rfl, rfl, rfl⟩
/-- `SetKeysReplacesTable`, `DisplayReadClearsDirty`: the last index of each range. -/
theorem test_witness_ports : ((State.reset.setKeys [15, 16]).keys[15] = true) ∧ (State.reset.setKeys [16]).keys[15] = false ∧
    State.reset.snapshot[31].getMsbD 63 = false := by decide
/-- `ReturnPopsStack`, `CallPushesReturnAddress`: each clause. -/
theorem test_witness_stack : State.reset.stack = [] ∧ (State.reset.withStack [0x202]).stack = 0x202 :: [] ∧
    (limited 0).params.stackLimit = some (limited 0).stack.length ∧
    (limited 1).params.stackLimit ≠ some (limited 1).stack.length ∧
    State.reset.params.stackLimit ≠ some State.reset.stack.length := by decide
/-- `StoreDecimalDigits`, `StoreRegisterRange`: the highest and the lowest store that is allowed, with canonical memory. -/
theorem test_witness_storeOk : StoreOk (State.reset.withI 0xFFD) 0xFFD 3 ∧ StoreOk (State.reset.withI 0x200) 0x200 16 ∧
    StoreOk (unprotected.withI 0) 0 16 ∧ Memory.wf unprotected.params unprotected.mem = true :=
  ⟨fun k hk => ⟨by omega, fun _ => by omega⟩, fun k hk => ⟨by omega, fun _ => by omega⟩,
    fun k hk => ⟨by omega, fun h => by cases h⟩, rfl⟩
/-- The stores just past them: off the top, from above the top, and from the last reserved byte. -/
theorem test_witness_storeBad : ¬ StoreOk (State.reset.withI 0xFFE) 0xFFE 3 ∧ ¬ StoreOk (State.reset.withI 0x1000) 0x1000 1 ∧
    ¬ StoreOk (State.reset.withI 0x1FF) 0x1FF 2 :=
  ⟨fun h => by have := h 2 (by omega); omega, fun h => by have := h 0 (by omega); omega,
    fun h => by have := (h 0 (by omega)).2 rfl; omega⟩
/-- `LoadRegisterRange`, `DrawTogglesSpritePixels`: the last byte, past it, above it, and no byte at all. -/
theorem test_witness_readOk : ReadOk 0xFFF 1 ∧ ReadOk 0xFFFF 0 ∧ ¬ ReadOk 0xFFF 2 ∧ ¬ ReadOk 0xFFFF 1 :=
  ⟨fun k hk => by omega, fun k hk => by omega, fun h => by have := h 1 (by omega); omega,
    fun h => by have := h 0 (by omega); omega⟩
/-- `DrawTwiceRestores`: a blank display and a 1 bit that lands at the bottom right corner. -/
theorem test_witness_draw : ∃ s t, exec (.draw 1 2 1) s = .next t ∧ s.disp = blankDisplay ∧
    spriteBit s ((s.reg 1).toNat % 64) ((s.reg 2).toNat % 32) 1 31 63 = true ∧ (1 : Nibble) ≠ 0xF ∧ (2 : Nibble) ≠ 0xF :=
  ⟨(regs 63 31 0).withI 0x50, _, rfl, rfl, by decide, by decide, by decide⟩
/-- `KeySkips`: 15 and 16. -/
theorem test_witness_keyIndex : ((regs 0xF 0 0).reg 1).toNat < 16 ∧ 15 < ((regs 0x10 0 0).reg 1).toNat := by decide
/-- `WaitKeyTakesLowestOrReplays`: only the last key, the first key, and none. -/
theorem test_witness_waitKey : ((State.reset.setKeys [15]).keys[15] = true ∧
      ∀ j (hj : j < 15), (State.reset.setKeys [15]).keys[j] = false) ∧
    (State.reset.setKeys [0, 15]).keys[0] = true ∧ ∀ k (h : k < 16), State.reset.keys[k] = false := by decide
/-- `AddSetsCarry` and the other flag writers: a destination that is not VF. -/
theorem test_witness_notVF : (0xE : Nibble) ≠ 0xF := by decide

end Sys2Proof.Tests
end

section
/-! The host ports `set_keys` and `beep` (spec/10_state.md R35, R37). -/

namespace Sys2Proof.Machine

/-! `set_keys`. -/

/-- Replacing the key table touches no other piece of state. -/
theorem withKeys_keepsAllBut_keys (s : State) (table : Vector Bool 16) :
    KeepsAllBut [.keys] s (s.withKeys table) := by
  intro p untouched
  cases p with
  | keys => exact absurd (List.mem_singleton_self _) untouched
  | mem => exact withKeys_byteAt s table
  | V => exact withKeys_reg s table
  | _ => rfl

/-- Of two replacements of the key table, only the later one shows. -/
@[simp] theorem withKeys_withKeys (s : State) (first later : Vector Bool 16) :
    (s.withKeys first).withKeys later = s.withKeys later := rfl

/-- A key's entry after `set_keys` is its membership in the list alone, whatever the table held before (R35). -/
@[simp] theorem setKeys_keys_getElem (s : State) (pressed : List Int) (k : Nat) (h : k < 16) :
    (s.setKeys pressed).keys[k] = decide ((k : Int) ∈ pressed) := by
  simp only [State.setKeys, withKeys_keys, Vector.getElem_ofFn]

theorem setKeys_keepsAllBut_keys (s : State) (pressed : List Int) :
    KeepsAllBut [.keys] s (s.setKeys pressed) :=
  withKeys_keepsAllBut_keys s _

/-- The later of two `set_keys` calls decides (R35). -/
@[simp] theorem setKeys_setKeys (s : State) (pressed later : List Int) :
    (s.setKeys pressed).setKeys later = s.setKeys later :=
  withKeys_withKeys s _ _

/-- Settles O23: an entry of the new table is membership in the list, the frame is that of `withKeys`, and the later
replacement shows. -/
theorem setKeysReplacesTable : Obligations.SetKeysReplacesTable := by
  unfold Obligations.SetKeysReplacesTable
  intro s pressed
  refine ⟨fun k h => ?_, setKeys_keepsAllBut_keys s pressed, setKeys_setKeys s pressed⟩
  rw [setKeys_keys_getElem s pressed k h, decide_eq_true_iff]

/-! `beep`. -/

/-- The tone is on exactly while the sound timer, read as a number, is not 0 (R37). -/
theorem beep_eq_true_iff (s : State) : s.beep = true ↔ s.ST.toNat ≠ 0 := by
  have zero_iff : s.ST = 0 ↔ s.ST.toNat = 0 := BitVec.toNat_eq
  rw [State.beep, bne_iff_ne, ne_eq, zero_iff]

/-- A `beep` call only reads (R37). -/
@[simp] theorem hostCall_beep (s : State) : hostCall s .beep = s := rfl

/-- Settles O25: `beep` compares the sound timer with 0, and the host call is a read. -/
theorem beepWhileSoundNonzero : Obligations.BeepWhileSoundNonzero := by
  unfold Obligations.BeepWhileSoundNonzero
  exact fun s => ⟨beep_eq_true_iff s, hostCall_beep s⟩

end Sys2Proof.Machine
end

section
/-! The opcode table's rows (spec/30_encoding.md R94, R95): a row's mask covers whole fields of the word, so the words of
a row are given by the fields the decoder looks at. -/

namespace Sys2Proof

variable {w m : Word} {i : Instr}

/-! The fields of a word given as a number. -/

@[simp] theorem fieldOp_ofNat (k : Nat) : fieldOp (BitVec.ofNat 16 k) = BitVec.ofNat 4 (k % 65536 / 4096) := by
  simp [fieldOp, BitVec.extractLsb', Nat.shiftRight_eq_div_pow]
@[simp] theorem fieldN_ofNat (k : Nat) : fieldN (BitVec.ofNat 16 k) = BitVec.ofNat 4 (k % 65536) := by
  simp [fieldN, BitVec.extractLsb']
@[simp] theorem fieldNN_ofNat (k : Nat) : fieldNN (BitVec.ofNat 16 k) = BitVec.ofNat 8 (k % 65536) := by
  simp [fieldNN, BitVec.extractLsb']

/-! What each of the table's masks says of a word. `m` is a row's `match`; the hypothesis says that it has no bit outside
the mask, and `simp` computes it. -/

/-- The mask of a row fixed by its first nibble. -/
theorem and_opMask_eq_iff (fixed : m &&& 0xF000#16 = m) : w &&& 0xF000#16 = m ↔ fieldOp w = fieldOp m := by
  constructor
  · rintro rfl
    ext k hk; interval_cases k <;> simp [fieldOp]
  · intro same_op
    rw [← fixed, word_eq_op_nnn w, word_eq_op_nnn m, same_op]
    ext k hk; interval_cases k <;> simp

/-- The mask of a row fixed by its first and last nibble. -/
theorem and_opNMask_eq_iff (fixed : m &&& 0xF00F#16 = m) :
    w &&& 0xF00F#16 = m ↔ fieldOp w = fieldOp m ∧ fieldN w = fieldN m := by
  constructor
  · rintro rfl
    constructor <;> ext k hk <;> interval_cases k <;> simp [fieldOp, fieldN]
  · rintro ⟨same_op, same_n⟩
    rw [← fixed, word_eq_op_x_y_n w, word_eq_op_x_y_n m, same_op, same_n]
    ext k hk; interval_cases k <;> simp

/-- The mask of a row fixed by its first nibble and its low byte. -/
theorem and_opNNMask_eq_iff (fixed : m &&& 0xF0FF#16 = m) :
    w &&& 0xF0FF#16 = m ↔ fieldOp w = fieldOp m ∧ fieldNN w = fieldNN m := by
  constructor
  · rintro rfl
    constructor <;> ext k hk <;> interval_cases k <;> simp [fieldOp, fieldNN]
  · rintro ⟨same_op, same_nn⟩
    rw [← fixed, word_eq_op_x_nn w, word_eq_op_x_nn m, same_op, same_nn]
    ext k hk; interval_cases k <;> simp

/-! What a word decodes to fits the word. -/

/-- An answer of the decoder that is right about `w`: an instruction in whose row `w` lies, or `w` itself as unknown. -/
def Decoded.Fits (w : Word) : Decoded → Prop
  | .instr i => w &&& rowMask i = rowMatch i
  | .unknown u => u = w

@[simp] theorem Decoded.fits_instr : (Decoded.instr i).Fits w ↔ w &&& rowMask i = rowMatch i := Iff.rfl
@[simp] theorem Decoded.fits_unknown {u : Word} : (Decoded.unknown u).Fits w ↔ u = w := Iff.rfl

theorem decodeFamily0_fits (w : Word) : (decodeFamily0 w).Fits w := by
  unfold decodeFamily0
  split_ifs with is_cls is_ret
  · subst is_cls; rfl
  · subst is_ret; rfl
  · rfl

theorem decodeFamily5_fits (op : fieldOp w = 0x5#4) : (decodeFamily5 w).Fits w := by
  unfold decodeFamily5
  split_ifs with n
  · simp [rowMask, rowMatch, and_opNMask_eq_iff, op, n]
  · rfl

theorem decodeFamily8_fits (op : fieldOp w = 0x8#4) : (decodeFamily8 w).Fits w := by
  unfold decodeFamily8
  split
  case h_10 => rfl
  all_goals
    next n => simp [rowMask, rowMatch, and_opNMask_eq_iff, op, nibble_of_toNat n]

theorem decodeFamilyE_fits (op : fieldOp w = 0xE#4) : (decodeFamilyE w).Fits w := by
  unfold decodeFamilyE
  split_ifs
  case neg => rfl
  all_goals
    next nn => simp [rowMask, rowMatch, and_opNNMask_eq_iff, op, nn]

theorem decodeFamilyF_fits (op : fieldOp w = 0xF#4) : (decodeFamilyF w).Fits w := by
  unfold decodeFamilyF
  split_ifs
  case neg => rfl
  all_goals
    next nn => simp [rowMask, rowMatch, and_opNNMask_eq_iff, op, nn]

/-- The decoder is right about every word: a family either has a lemma above or holds one instruction, whose row asks for
the first nibble alone. -/
theorem decodeWord_fits (w : Word) : (decodeWord w).Fits w := by
  rcases decodeWord_cases w with
    ⟨op, decoded⟩ | ⟨op, decoded⟩ | ⟨op, decoded⟩ | ⟨op, decoded⟩ | ⟨op, decoded⟩ | ⟨op, decoded⟩ | ⟨op, decoded⟩ |
    ⟨op, decoded⟩ | ⟨op, decoded⟩ | ⟨op, decoded⟩ | ⟨op, decoded⟩ | ⟨op, decoded⟩ | ⟨op, decoded⟩ | ⟨op, decoded⟩ |
    ⟨op, decoded⟩ | ⟨op, decoded⟩ <;>
  simp [decoded, op, decodeFamily0_fits, decodeFamily5_fits, decodeFamily8_fits, decodeFamilyE_fits,
    decodeFamilyF_fits, rowMask, rowMatch, and_opMask_eq_iff]

theorem row_of_decodeWord (decoded : decodeWord w = .instr i) : w &&& rowMask i = rowMatch i := by
  simpa [decoded] using decodeWord_fits w

theorem eq_of_decodeWord_unknown {u : Word} (decoded : decodeWord w = .unknown u) : u = w := by
  simpa [decoded] using decodeWord_fits w

/-- A word of a row decodes to an instruction of that row: the fields that the row's mask covers are those by which the
decoder tells its family's instructions apart. -/
theorem decodeWord_of_row (inRow : w &&& rowMask i = rowMatch i) :
    ∃ j, decodeWord w = .instr j ∧ rowMatch j = rowMatch i ∧ rowMask j = rowMask i := by
  cases i with
  | cls | ret =>
    obtain rfl : w = _ := (BitVec.and_allOnes (x := w)).symm.trans inRow
    exact ⟨_, rfl, rfl, rfl⟩
  | jump | call | skipEqImm | skipNeqImm | skipNeqReg | loadImm | addImm | setI | jumpOffset | random | draw =>
    simp [rowMask, rowMatch, and_opMask_eq_iff] at inRow
    simp [decodeWord, inRow, rowMask, rowMatch]
  | skipEqReg | loadReg | orReg | andReg | xorReg | addReg | subReg | shr | subnReg | shl =>
    simp [rowMask, rowMatch, and_opNMask_eq_iff] at inRow
    simp [decodeWord, decodeFamily5, decodeFamily8, inRow, rowMask, rowMatch]
  | skipKey | skipNotKey | loadDelay | waitKey | setDelay | setSound | addI | setIFont | storeBcd | storeRegs | loadRegs =>
    simp [rowMask, rowMatch, and_opNNMask_eq_iff] at inRow
    simp [decodeWord, decodeFamilyE, decodeFamilyF, inRow, rowMask, rowMatch]

/-- Settles O4: the decoder's answer fits the word, and the fields of a row determine the answer up to its operands. -/
theorem decodeSelectsTheRow : Obligations.DecodeSelectsTheRow := by
  unfold Obligations.DecodeSelectsTheRow
  refine fun w => ⟨fun i => row_of_decodeWord, fun i => decodeWord_of_row, fun noRow => ?_⟩
  cases decoded : decodeWord w with
  | instr i => exact absurd (row_of_decodeWord decoded) (noRow i)
  | unknown u => rw [eq_of_decodeWord_unknown decoded]

end Sys2Proof
end

section
/-! The decoder undoes the encoder (spec/30_encoding.md R92, R94), one word format at a time. -/

namespace Sys2Proof

/-- The word an instruction is encoded as decodes to that instruction: its format keeps the row's fixed fields, which
select the instruction, and every operand in its own field. -/
theorem decodeWord_encode (i : Instr) : decodeWord (encode i) = .instr i := by
  cases i with
  | cls | ret => rfl
  | jump | call | setI | jumpOffset =>
    simp (disch := decide) [encode, decodeWord, fieldOp_wordNNN, fieldNNN_wordNNN]
  | skipEqImm | skipNeqImm | loadImm | addImm | random =>
    simp (disch := decide) [encode, decodeWord, fieldOp_wordXNN, fieldX_wordXNN, fieldNN_wordXNN]
  | skipNeqReg | draw =>
    simp (disch := decide) [encode, decodeWord, fieldOp_wordXYN, fieldX_wordXYN, fieldY_wordXYN, fieldN_wordXYN]
  | skipEqReg | loadReg | orReg | andReg | xorReg | addReg | subReg | shr | subnReg | shl =>
    simp (disch := decide) [encode, decodeWord, decodeFamily5, decodeFamily8, fieldOp_wordXY, fieldN_wordXY,
      fieldX_wordXY, fieldY_wordXY]
  | skipKey | skipNotKey | loadDelay | waitKey | setDelay | setSound | addI | setIFont | storeBcd | storeRegs | loadRegs =>
    simp (disch := decide) [encode, decodeWord, decodeFamilyE, decodeFamilyF, fieldOp_wordX, fieldNN_wordX,
      fieldX_wordX]

end Sys2Proof
end

section
/-! The control-flow instructions (spec/41_control_flow.md): each writes `pc`, and a return the stack. -/

namespace Sys2Proof.Machine

/-! Frames of the two pieces of state that control flow writes, and of one update after another. -/

theorem withPc_keepsAllBut_pc (s : State) (target : Word) : KeepsAllBut [.pc] s (s.withPc target) := by
  intro p untouched
  cases p with
  | pc => exact absurd (List.mem_singleton_self _) untouched
  | mem => exact withPc_byteAt s target
  | V => exact withPc_reg s target
  | _ => rfl

theorem withStack_keepsAllBut_stack (s : State) (k : List Word) : KeepsAllBut [.stack] s (s.withStack k) := by
  intro p untouched
  cases p with
  | stack => exact absurd (List.mem_singleton_self _) untouched
  | mem => exact withStack_byteAt s k
  | V => exact withStack_reg s k
  | _ => rfl

theorem Unchanged.trans {s t u : State} {p : Part} (first : Unchanged s t p) (later : Unchanged t u p) :
    Unchanged s u p := by
  cases p with
  | mem | V => exact fun a => (later a).trans (first a)
  | _ => exact Eq.trans later first

/-- Two updates in a row touch what either touches. -/
theorem KeepsAllBut.trans {s t u : State} {ps qs : List Part} (first : KeepsAllBut qs s t)
    (later : KeepsAllBut ps t u) : KeepsAllBut (ps ++ qs) s u := by
  intro p untouched
  have not_first : p ∉ qs := fun h => untouched (List.mem_append_right ps h)
  have not_later : p ∉ ps := fun h => untouched (List.mem_append_left qs h)
  exact (first p not_first).trans (later p not_later)

/-! Return. -/

/-- Settles O27: the word is the encoding of `return`; the two cases of the stack are those of `exec_ret_nil` and
`exec_ret_cons`. -/
theorem returnPopsStack : Obligations.ReturnPopsStack := by
  unfold Obligations.ReturnPopsStack
  refine ⟨decodeWord_encode .ret, fun s => ⟨exec_ret_nil, fun v rest stack_eq => ?_⟩⟩
  have frame : KeepsAllBut [.pc, .stack] s ((s.withStack rest).withPc v) :=
    (withStack_keepsAllBut_stack s rest).trans (withPc_keepsAllBut_pc _ v)
  exact ⟨_, exec_ret_cons stack_eq, rfl, rfl, frame⟩

/-! Jumps. -/

/-- Settles O28: the target is the address widened, which keeps its value. -/
theorem jumpSetsPc : Obligations.JumpSetsPc := by
  unfold Obligations.JumpSetsPc
  exact fun nnn s => ⟨decodeWord_encode (.jump nnn), s.withPc (addrImm nnn), rfl, addrImm_toNat nnn,
    withPc_keepsAllBut_pc s _⟩

@[simp] theorem regWide_toNat (b : Byte) : (regWide b).toNat = b.toNat := by
  rw [regWide, BitVec.toNat_setWidth, Nat.mod_eq_of_lt (by omega)]

/-- A 12-bit address plus a byte does not reach 65536, so the 16-bit sum is the sum of the numbers (R147). -/
theorem addrImm_add_regWide_toNat (nnn : Addr12) (b : Byte) :
    (addrImm nnn + regWide b).toNat = nnn.toNat + b.toNat := by
  rw [BitVec.toNat_add, addrImm_toNat, regWide_toNat, Nat.mod_eq_of_lt (by omega)]

/-- Settles O34: the sum is exact, and its largest value is 0xFFF + 0xFF. -/
theorem jumpOffsetAddsV0 : Obligations.JumpOffsetAddsV0 := by
  unfold Obligations.JumpOffsetAddsV0
  intro nnn s
  have exact_sum := addrImm_add_regWide_toNat nnn (s.reg 0#4)
  have bound : (addrImm nnn + regWide (s.reg 0#4)).toNat ≤ 0x10FE := by omega
  exact ⟨decodeWord_encode (.jumpOffset nnn), s.withPc (addrImm nnn + regWide (s.reg 0#4)), rfl, exact_sum, bound,
    withPc_keepsAllBut_pc s _⟩

/-! Skips (R148). -/

/-- What an instruction does that answers `skipIf` of a test: it skips exactly when the condition that the test decides
holds, and touches nothing but `pc`. -/
theorem exec_skip_of_iff {i : Instr} {s : State} {test : Bool} {condition : Prop} [Decidable condition]
    (answer : exec i s = .next (s.skipIf test)) (decides : test = true ↔ condition) :
    ∃ t, exec i s = .next t ∧ t.pc = (if condition then s.pc + 2 else s.pc) ∧ KeepsAllBut [.pc] s t := by
  refine ⟨_, answer, ?_, withPc_keepsAllBut_pc s _⟩
  rw [skipIf_pc]
  exact if_congr decides rfl rfl

/-- Settles O30: the test is equality of the register and the immediate. -/
theorem skipIfEqualImmediate : Obligations.SkipIfEqualImmediate := by
  unfold Obligations.SkipIfEqualImmediate
  exact fun x nn s => ⟨decodeWord_encode (.skipEqImm x nn), exec_skip_of_iff rfl beq_iff_eq⟩

/-- Settles O31: the test is inequality of the register and the immediate. -/
theorem skipIfNotEqualImmediate : Obligations.SkipIfNotEqualImmediate := by
  unfold Obligations.SkipIfNotEqualImmediate
  exact fun x nn s => ⟨decodeWord_encode (.skipNeqImm x nn), exec_skip_of_iff rfl bne_iff_ne⟩

/-- Settles O32: the test is equality of the two registers. -/
theorem skipIfRegistersEqual : Obligations.SkipIfRegistersEqual := by
  unfold Obligations.SkipIfRegistersEqual
  exact fun x y s => ⟨decodeWord_encode (.skipEqReg x y), exec_skip_of_iff rfl beq_iff_eq⟩

/-- Settles O33: the test is inequality of the two registers, and the last nibble is an operand of the encoding. -/
theorem skipIfRegistersDiffer : Obligations.SkipIfRegistersDiffer := by
  unfold Obligations.SkipIfRegistersDiffer
  exact fun x y n s => ⟨decodeWord_encode (.skipNeqReg x y n), exec_skip_of_iff rfl bne_iff_ne⟩

end Sys2Proof.Machine
end

section
/-! Load, add and the 8-bit ALU (spec/42_alu.md): each instruction writes one register, or one register and then VF. -/

namespace Sys2Proof.Machine

/-! The write of one register. -/

theorem withV_keepsAllBut_V (s : State) (v : Vector Byte 16) : KeepsAllBut [.V] s (s.withV v) := by
  intro p untouched
  cases p with
  | V => exact absurd (List.mem_singleton_self _) untouched
  | mem => exact withV_byteAt s v
  | _ => rfl

theorem setReg_keepsAllBut_V (s : State) (x : Nibble) (b : Byte) : KeepsAllBut [.V] s (s.setReg x b) :=
  withV_keepsAllBut_V s _

theorem setReg_reg_same (s : State) (x : Nibble) (b : Byte) : (s.setReg x b).reg x = b := by
  rw [setReg_reg, if_pos rfl]

theorem setReg_keepsRegsBut (s : State) (x : Nibble) (b : Byte) : KeepsRegsBut [x] s (s.setReg x b) := by
  intro r unwritten
  rw [setReg_reg, if_neg (List.ne_of_not_mem_cons unwritten)]

/-- Settles O35: the register written holds the immediate. -/
theorem loadImmediate : Obligations.LoadImmediate := by
  unfold Obligations.LoadImmediate
  exact fun x nn s => ⟨decodeWord_encode (.loadImm x nn), s.setReg x nn, rfl, setReg_reg_same s x nn,
    setReg_keepsRegsBut s x nn, setReg_keepsAllBut_V s x nn⟩

/-- Settles O36: the register written holds the wrapped sum, and VF is written only where it is the destination. -/
theorem addImmediateWraps : Obligations.AddImmediateWraps := by
  unfold Obligations.AddImmediateWraps
  intro x nn s
  refine ⟨decodeWord_encode (.addImm x nn), s.setReg x (addWrap (s.reg x) nn), rfl, ?_,
    setReg_keepsRegsBut s x _, setReg_keepsAllBut_V s x _⟩
  rw [setReg_reg_same, addWrap_toNat]

/-- Settles O37: the register written holds the old value of the source. -/
theorem loadRegister : Obligations.LoadRegister := by
  unfold Obligations.LoadRegister
  exact fun x y s => ⟨decodeWord_encode (.loadReg x y), s.setReg x (s.reg y), rfl, setReg_reg_same s x _,
    setReg_keepsRegsBut s x _, setReg_keepsAllBut_V s x _⟩

/-- What an instruction does that answers the write of one register: every bit of that register is the written byte's,
and nothing else changes. -/
theorem exec_setReg_bits {i : Instr} {s : State} {x : Nibble} {result : Byte} {bit : Nat → Bool}
    (answer : exec i s = .next (s.setReg x result)) (result_bit : ∀ b, result.getLsbD b = bit b) :
    ∃ t, exec i s = .next t ∧ (∀ b, (t.reg x).getLsbD b = bit b) ∧ KeepsRegsBut [x] s t ∧ KeepsAllBut [.V] s t := by
  refine ⟨_, answer, fun b => ?_, setReg_keepsRegsBut s x _, setReg_keepsAllBut_V s x _⟩
  rw [setReg_reg_same, result_bit b]

/-- Settles O38: the bits of the bit vectors' or, and, exclusive-or are those of the operands, combined. -/
theorem bitwiseOperations : Obligations.BitwiseOperations := by
  unfold Obligations.BitwiseOperations
  exact fun x y s => ⟨decodeWord_encode (.orReg x y), decodeWord_encode (.andReg x y), decodeWord_encode (.xorReg x y),
    exec_setReg_bits rfl fun _ => BitVec.getLsbD_or, exec_setReg_bits rfl fun _ => BitVec.getLsbD_and,
    exec_setReg_bits rfl fun _ => BitVec.getLsbD_xor⟩

/-! The write of a result and then the flag (R172). -/

/-- With VF as the destination the result is lost: the flag is written last. -/
theorem setRegFlag_reg_VF (s : State) (x : Nibble) (result flag : Byte) :
    (s.setRegFlag x result flag).reg 0xF#4 = flag := by
  rw [setRegFlag_reg, if_pos rfl]

theorem setRegFlag_reg_dest {x : Nibble} (not_VF : x ≠ 0xF#4) (s : State) (result flag : Byte) :
    (s.setRegFlag x result flag).reg x = result := by
  rw [setRegFlag_reg, if_neg not_VF, if_pos rfl]

theorem setRegFlag_keepsRegsBut (s : State) (x : Nibble) (result flag : Byte) :
    KeepsRegsBut [x, 0xF#4] s (s.setRegFlag x result flag) := by
  intro r unwritten
  obtain ⟨not_x, not_VF⟩ : r ≠ x ∧ r ≠ 0xF#4 := by simpa using unwritten
  rw [setRegFlag_reg, if_neg not_VF, if_neg not_x]

theorem setRegFlag_keepsAllBut_V (s : State) (x : Nibble) (result flag : Byte) :
    KeepsAllBut [.V] s (s.setRegFlag x result flag) :=
  fun p untouched => (setReg_keepsAllBut_V s x result p untouched).trans (setReg_keepsAllBut_V _ 0xF#4 flag p untouched)

/-! The two arithmetic flags as numbers. -/

theorem carryFlag_toNat (a b : Byte) : (carryFlag a b).toNat = if a.toNat + b.toNat > 255 then 1 else 0 := by
  rw [carryFlag, flagByte_toNat]
  exact if_congr decide_eq_true_iff rfl rfl

theorem noBorrowFlag_toNat (minuend subtrahend : Byte) :
    (noBorrowFlag minuend subtrahend).toNat = if minuend.toNat ≥ subtrahend.toNat then 1 else 0 := by
  rw [noBorrowFlag, flagByte_toNat]
  exact if_congr decide_eq_true_iff rfl rfl

/-- What an instruction does that answers the write of a result and a flag: both are as given, the result unless the flag
overwrites it, and nothing else changes. -/
theorem exec_setRegFlag_toNat {i : Instr} {s : State} {x : Nibble} {result flag : Byte} {resultNat flagNat : Nat}
    (answer : exec i s = .next (s.setRegFlag x result flag)) (result_eq : result.toNat = resultNat)
    (flag_eq : flag.toNat = flagNat) :
    ∃ t, exec i s = .next t ∧ (x ≠ 0xF#4 → (t.reg x).toNat = resultNat) ∧ (t.reg 0xF#4).toNat = flagNat ∧
      KeepsRegsBut [x, 0xF#4] s t ∧ KeepsAllBut [.V] s t := by
  refine ⟨_, answer, fun not_VF => ?_, ?_, setRegFlag_keepsRegsBut s x _ _, setRegFlag_keepsAllBut_V s x _ _⟩
  · rw [setRegFlag_reg_dest not_VF, result_eq]
  · rw [setRegFlag_reg_VF, flag_eq]

/-- Settles O39: the result is the wrapped sum and the flag the carry, both of the operands before the write. -/
theorem addSetsCarry : Obligations.AddSetsCarry := by
  unfold Obligations.AddSetsCarry
  exact fun x y s => ⟨decodeWord_encode (.addReg x y),
    exec_setRegFlag_toNat rfl (addWrap_toNat _ _) (carryFlag_toNat _ _)⟩

/-- Settles O40: the result is the wrapped difference and the flag is 1 without a borrow, both of the operands before the
write. -/
theorem subSetsNoBorrow : Obligations.SubSetsNoBorrow := by
  unfold Obligations.SubSetsNoBorrow
  exact fun x y s => ⟨decodeWord_encode (.subReg x y),
    exec_setRegFlag_toNat rfl (subWrap_toNat _ _) (noBorrowFlag_toNat _ _)⟩

end Sys2Proof.Machine
end

section
/-! The index register and its memory (spec/43_index_memory.md): two instructions write `I` alone, two store bytes from
`I` up, one loads registers from there. The memory operations name their first address by `State.base`, which is `I` as
a number. -/

namespace Sys2Proof.Machine

/-! Index register. -/

theorem withI_keepsAllBut_I (s : State) (t : Word) : KeepsAllBut [.I] s (s.withI t) := by
  intro p untouched
  cases p with
  | I => exact absurd (List.mem_singleton_self _) untouched
  | mem => exact withI_byteAt s t
  | V => exact withI_reg s t
  | _ => rfl

/-- Settles O44: the value written is the address widened, which keeps its value. -/
theorem setIndex : Obligations.SetIndex := by
  unfold Obligations.SetIndex
  exact fun nnn s => ⟨decodeWord_encode (.setI nnn), s.withI (addrImm nnn), rfl, addrImm_toNat nnn,
    withI_keepsAllBut_I s _⟩

/-- Settles O45: the value written is the 16-bit sum of `I` and the register widened. -/
theorem addToIndexWraps : Obligations.AddToIndexWraps := by
  unfold Obligations.AddToIndexWraps
  intro x s
  refine ⟨decodeWord_encode (.addI x), s.withI (s.I + regWide (s.reg x)), rfl, ?_, withI_keepsAllBut_I s _⟩
  rw [withI_I, BitVec.toNat_add, regWide_toNat]

/-! Stores. -/

theorem withMem_keepsAllBut_mem (s : State) (m : Memory) : KeepsAllBut [.mem] s (s.withMem m) := by
  intro p untouched
  cases p with
  | mem => exact absurd (List.mem_singleton_self _) untouched
  | V => exact withMem_reg s m
  | _ => rfl

theorem placeBytes_keepsAllBut_mem (s : State) (a : Nat) (bs : List Byte) :
    KeepsAllBut [.mem] s (s.placeBytes a bs) := by
  rw [placeBytes_withMem]
  exact withMem_keepsAllBut_mem s _

/-- A store whose bytes may all be written ends inside memory. -/
theorem StoreOk.add_le {s : State} {a n : Nat} (ok : StoreOk s a n) (nonempty : 0 < n) : a + n ≤ 4096 := by
  have last_ok := (ok (n - 1) (by omega)).1
  omega

/-- What an instruction does that answers the laying of `bs` from `a` up, where all of them may be written: in canonical
memory the bytes read back as laid, every other byte reads as before, and nothing else changes. -/
theorem exec_placeBytes {i : Instr} {s : State} {a n : Nat} {bs : List Byte} (ok : StoreOk s a n) (nonempty : 0 < n)
    (length_eq : bs.length = n) (answer : exec i s = .next (s.placeBytes a bs)) :
    ∃ t, exec i s = .next t ∧
      (Memory.wf s.params s.mem = true → ∀ k b, bs[k]? = some b → t.byteAt (a + k) = b) ∧
      (∀ x, ¬ (a ≤ x ∧ x < a + n) → t.byteAt x = s.byteAt x) ∧ KeepsAllBut [.mem] s t := by
  subst length_eq
  refine ⟨_, answer, fun canonical k b byte_k => ?_, fun x outside => ?_, placeBytes_keepsAllBut_mem s a bs⟩
  · obtain ⟨in_range, rfl⟩ := List.getElem?_eq_some_iff.mp byte_k
    exact placeBytes_same bs (ok.add_le nonempty) canonical in_range
  · exact placeBytes_other bs fun k in_range => by omega

/-- The three decimal digits of a byte each fit a byte (R183). -/
theorem decimalDigits_toNat (v : Byte) :
    (decimalDigits v).map BitVec.toNat = [v.toNat / 100, v.toNat / 10 % 10, v.toNat % 10] := by
  have hundreds : v.toNat / 100 < 2 ^ 8 := by omega
  have tens : v.toNat / 10 % 10 < 2 ^ 8 := by omega
  have ones : v.toNat % 10 < 2 ^ 8 := by omega
  simp only [decimalDigits, List.map_cons, List.map_nil, BitVec.toNat_ofNat, Nat.mod_eq_of_lt hundreds,
    Nat.mod_eq_of_lt tens, Nat.mod_eq_of_lt ones]

/-- Settles O47: the bytes laid are the three digits, and a store that may not be made faults at its first such byte. -/
theorem storeDecimalDigits : Obligations.StoreDecimalDigits := by
  unfold Obligations.StoreDecimalDigits
  refine fun x s => ⟨decodeWord_encode (.storeBcd x), fun ok => ?_, exec_storeBcd_fault⟩
  obtain ⟨t, answer, stored, others, frame⟩ := exec_placeBytes ok (by omega) rfl (exec_storeBcd_ok ok)
  refine ⟨t, answer, fun canonical => ?_, others, frame⟩
  have digits := decimalDigits_toNat (s.reg x)
  simp only [decimalDigits, List.map_cons, List.map_nil, List.cons.injEq, and_true] at digits
  obtain ⟨hundreds, tens, ones⟩ := digits
  exact ⟨(congrArg BitVec.toNat (stored canonical 0 _ rfl)).trans hundreds,
    (congrArg BitVec.toNat (stored canonical 1 _ rfl)).trans tens,
    (congrArg BitVec.toNat (stored canonical 2 _ rfl)).trans ones⟩

/-- Settles O48: the bytes laid are the registers up to Vx in order, and a store that may not be made faults at its first
such byte. -/
theorem storeRegisterRange : Obligations.StoreRegisterRange := by
  unfold Obligations.StoreRegisterRange
  refine fun x s => ⟨decodeWord_encode (.storeRegs x), fun ok => ?_, exec_storeRegs_fault⟩
  obtain ⟨t, answer, stored, others, frame⟩ :=
    exec_placeBytes ok (by omega) (regsThrough_length s x) (exec_storeRegs_ok ok)
  refine ⟨t, answer, fun canonical r in_range => stored canonical r.toNat _ ?_, others, frame⟩
  rw [regsThrough_getElem s x r.toNat in_range, BitVec.ofNat_toNat, BitVec.setWidth_eq]

/-! Loads. -/

theorem setRegs_keepsAllBut_V (s : State) (bytes : List Byte) : KeepsAllBut [.V] s (s.setRegs bytes) :=
  withV_keepsAllBut_V s _

/-- A register after a load of `n` registers from `a` up. -/
theorem setRegs_range_reg (s : State) (a n : Nat) (r : Nibble) :
    (s.setRegs ((List.range n).map fun k => s.byteAt (a + k))).reg r =
      if r.toNat < n then s.byteAt (a + r.toNat) else s.reg r := by
  rw [setRegs_reg, List.getElem?_map]
  split_ifs with in_range
  · rw [List.getElem?_range in_range]; rfl
  · rw [List.getElem?_eq_none (by simpa using in_range)]; rfl

/-- Settles O49: each register the bytes reach holds its byte, and a load that leaves memory faults at its first address
that does. -/
theorem loadRegisterRange : Obligations.LoadRegisterRange := by
  unfold Obligations.LoadRegisterRange
  refine fun x s => ⟨decodeWord_encode (.loadRegs x), fun ok => ?_, exec_loadRegs_fault⟩
  refine ⟨_, exec_loadRegs_ok ok, fun r => ?_, setRegs_keepsAllBut_V s _⟩
  rw [setRegs_range_reg]
  exact if_congr Nat.lt_succ_iff rfl rfl

end Sys2Proof.Machine
end

section
/-! The encoder undoes the decoder, and the words that it gives to no instruction (spec/30_encoding.md R94, R102). -/

namespace Sys2Proof

variable {w m : Word} {i : Instr}

/-- Settles O1: the decoder undoes the encoder, whatever the instruction. -/
theorem decodeOfEncode : Obligations.DecodeOfEncode := by
  unfold Obligations.DecodeOfEncode
  exact decodeWord_encode

/-! A word is rebuilt from its row's fixed bits and the fields that the row's mask leaves to the operands. -/

theorem wordNNN_fields (row : w &&& 0xF000#16 = m) : wordNNN m (fieldNNN w) = w := by
  subst row
  ext k hk; interval_cases k <;> simp [wordNNN, fieldNNN]

theorem wordXNN_fields (row : w &&& 0xF000#16 = m) : wordXNN m (fieldX w) (fieldNN w) = w := by
  subst row
  ext k hk; interval_cases k <;> simp [wordXNN, fieldX, fieldNN]

theorem wordXYN_fields (row : w &&& 0xF000#16 = m) : wordXYN m (fieldX w) (fieldY w) (fieldN w) = w := by
  subst row
  ext k hk; interval_cases k <;> simp [wordXYN, wordXY, fieldX, fieldY, fieldN]

theorem wordXY_fields (row : w &&& 0xF00F#16 = m) : wordXY m (fieldX w) (fieldY w) = w := by
  subst row
  ext k hk; interval_cases k <;> simp [wordXY, fieldX, fieldY]

theorem wordX_fields (row : w &&& 0xF0FF#16 = m) : wordX m (fieldX w) = w := by
  subst row
  ext k hk; interval_cases k <;> simp [wordX, fieldX]

/-- A word that decodes to an instruction lies in the instruction's row, so the decoder's answer on it is known: the
operands are the word's own fields, and the row's word with those fields is the word. -/
theorem encode_of_decodeWord (decoded : decodeWord w = .instr i) : encode i = w := by
  have row := row_of_decodeWord decoded
  cases i with
  | cls | ret => exact row.symm.trans BitVec.and_allOnes
  | jump | call | setI | jumpOffset =>
    have op := row
    simp [rowMask, rowMatch, and_opMask_eq_iff] at op
    simp [decodeWord, op] at decoded
    obtain rfl := decoded
    exact wordNNN_fields row
  | skipEqImm | skipNeqImm | loadImm | addImm | random =>
    have op := row
    simp [rowMask, rowMatch, and_opMask_eq_iff] at op
    simp [decodeWord, op] at decoded
    obtain ⟨rfl, rfl⟩ := decoded
    exact wordXNN_fields row
  | skipNeqReg | draw =>
    have op := row
    simp [rowMask, rowMatch, and_opMask_eq_iff] at op
    simp [decodeWord, op] at decoded
    obtain ⟨rfl, rfl, rfl⟩ := decoded
    exact wordXYN_fields row
  | skipEqReg | loadReg | orReg | andReg | xorReg | addReg | subReg | shr | subnReg | shl =>
    have op_n := row
    simp [rowMask, rowMatch, and_opNMask_eq_iff] at op_n
    simp [decodeWord, decodeFamily5, decodeFamily8, op_n] at decoded
    obtain ⟨rfl, rfl⟩ := decoded
    exact wordXY_fields row
  | skipKey | skipNotKey | loadDelay | waitKey | setDelay | setSound | addI | setIFont | storeBcd | storeRegs | loadRegs =>
    have op_nn := row
    simp [rowMask, rowMatch, and_opNNMask_eq_iff] at op_nn
    simp [decodeWord, decodeFamilyE, decodeFamilyF, op_nn] at decoded
    obtain rfl := decoded
    exact wordX_fields row

/-- Settles O2: the word is rebuilt from its row and its fields. -/
theorem encodeOfDecode : Obligations.EncodeOfDecode := by
  unfold Obligations.EncodeOfDecode
  exact fun _ _ => encode_of_decodeWord

/-! The unknown words, one family at a time (R102). -/

theorem decodeFamily0_eq_unknown_iff : decodeFamily0 w = .unknown w ↔ w ≠ 0x00E0#16 ∧ w ≠ 0x00EE#16 := by
  unfold decodeFamily0
  split_ifs <;> simp_all

theorem decodeFamily5_eq_unknown_iff : decodeFamily5 w = .unknown w ↔ fieldN w ≠ 0x0#4 := by
  unfold decodeFamily5
  split_ifs <;> simp_all

theorem decodeFamily8_eq_unknown_iff :
    decodeFamily8 w = .unknown w ↔ fieldN w ∈ [0x8#4, 0x9#4, 0xA#4, 0xB#4, 0xC#4, 0xD#4, 0xF#4] := by
  have off_table : ∀ n : Nibble, n ∈ [0x8#4, 0x9#4, 0xA#4, 0xB#4, 0xC#4, 0xD#4, 0xF#4] ↔
      n.toNat ∉ [0x0, 0x1, 0x2, 0x3, 0x4, 0x5, 0x6, 0x7, 0xE] := by decide
  rw [off_table]
  unfold decodeFamily8
  split <;> simp_all

theorem decodeFamilyE_eq_unknown_iff : decodeFamilyE w = .unknown w ↔ fieldNN w ∉ [0x9E#8, 0xA1#8] := by
  unfold decodeFamilyE
  split_ifs <;> simp_all

theorem decodeFamilyF_eq_unknown_iff : decodeFamilyF w = .unknown w ↔
    fieldNN w ∉ [0x07#8, 0x0A#8, 0x15#8, 0x18#8, 0x1E#8, 0x29#8, 0x33#8, 0x55#8, 0x65#8] := by
  unfold decodeFamilyF
  split_ifs <;> simp_all

/-- Settles O3: an unknown word is reported as itself; the five families above have unknown words, and each of the other
eleven holds one instruction, whatever the rest of the word. -/
theorem unknownWordsExactly : Obligations.UnknownWordsExactly := by
  unfold Obligations.UnknownWordsExactly
  refine fun w => ⟨fun u => eq_of_decodeWord_unknown, ?_⟩
  rcases decodeWord_cases w with
    ⟨op, decoded⟩ | ⟨op, decoded⟩ | ⟨op, decoded⟩ | ⟨op, decoded⟩ | ⟨op, decoded⟩ | ⟨op, decoded⟩ | ⟨op, decoded⟩ |
    ⟨op, decoded⟩ | ⟨op, decoded⟩ | ⟨op, decoded⟩ | ⟨op, decoded⟩ | ⟨op, decoded⟩ | ⟨op, decoded⟩ | ⟨op, decoded⟩ |
    ⟨op, decoded⟩ | ⟨op, decoded⟩ <;>
  simp [decoded, op, decodeFamily0_eq_unknown_iff, decodeFamily5_eq_unknown_iff, decodeFamily8_eq_unknown_iff,
    decodeFamilyE_eq_unknown_iff, decodeFamilyF_eq_unknown_iff]

/-- Settles O5: each word with a row is the encoding of its instruction; in `5121` the last nibble of family 5 is not 0. -/
theorem specWordsDecode : Obligations.SpecWordsDecode := by
  unfold Obligations.SpecWordsDecode
  exact ⟨decodeWord_encode (.loadImm 0xA#4 5#8), decodeWord_encode (.addImm 0xA#4 3#8), decodeWord_encode .ret,
    decodeWord_encode (.skipNeqReg 1#4 2#4 5#4), decodeWord_encode (.shr 1#4 2#4), decodeWord_encode (.draw 1#4 2#4 5#4),
    decodeWord_encode (.skipKey 2#4), decodeWord_encode (.storeBcd 2#4),
    decodeFamily5_eq_unknown_iff.mpr (by decide)⟩

end Sys2Proof
end

section
/-! What each instruction may do (spec/40_cycle_step.md R123): when it answers a next state and which, when it faults,
and what it leaves unchanged. -/

namespace Sys2Proof.Machine

/-! Frames of the pieces of state that have none yet. -/

theorem withDT_keepsAllBut_DT (s : State) (b : Byte) : KeepsAllBut [.DT] s (s.withDT b) := by
  intro p untouched
  cases p with
  | DT => exact absurd (List.mem_singleton_self _) untouched
  | mem => exact withDT_byteAt s b
  | V => exact withDT_reg s b
  | _ => rfl

theorem withST_keepsAllBut_ST (s : State) (b : Byte) : KeepsAllBut [.ST] s (s.withST b) := by
  intro p untouched
  cases p with
  | ST => exact absurd (List.mem_singleton_self _) untouched
  | mem => exact withST_byteAt s b
  | V => exact withST_reg s b
  | _ => rfl

theorem withDisp_keepsAllBut_disp (s : State) (d : Display) : KeepsAllBut [.disp] s (s.withDisp d) := by
  intro p untouched
  cases p with
  | disp => exact absurd (List.mem_singleton_self _) untouched
  | mem => exact withDisp_byteAt s d
  | V => exact withDisp_reg s d
  | _ => rfl

theorem withDirty_keepsAllBut_dirty (s : State) (b : Bool) : KeepsAllBut [.dirty] s (s.withDirty b) := by
  intro p untouched
  cases p with
  | dirty => exact absurd (List.mem_singleton_self _) untouched
  | mem => exact withDirty_byteAt s b
  | V => exact withDirty_reg s b
  | _ => rfl

theorem drawn_keepsAllBut_draws (s : State) : KeepsAllBut [.draws] s s.drawn := by
  intro p untouched
  cases p with
  | draws => exact absurd (List.mem_singleton_self _) untouched
  | mem => exact drawn_byteAt s
  | V => exact drawn_regs s
  | _ => rfl

theorem timerGate_keepsAllBut (s : State) (now : Time) : KeepsAllBut [.DT, .ST, .tRef, .draws] s (s.timerGate now) := by
  intro p untouched
  cases p with
  | DT | ST | tRef | draws => simp at untouched
  | mem => exact timerGate_byteAt s now
  | V => exact timerGate_regs s now
  | _ => rfl

/-- A frame may be widened. -/
theorem KeepsAllBut.mono {s t : State} {ps qs : List Part} (frame : KeepsAllBut ps s t) (wider : ps ⊆ qs) :
    KeepsAllBut qs s t :=
  fun p untouched => frame p fun h => untouched (wider h)

theorem randomWith_keepsAllBut (rand : Byte) (x : Nibble) (nn : Byte) (s : State) :
    KeepsAllBut [.V, .draws] s (randomWith rand x nn s) :=
  ((setReg_keepsAllBut_V s x _).trans (drawn_keepsAllBut_draws _)).mono (by simp)

theorem drawRows_keepsAllBut (s : State) (x0 y0 : Nat) (rows : List Byte) :
    KeepsAllBut [.disp, .dirty, .V] s (s.drawRows x0 y0 rows) :=
  (((withDisp_keepsAllBut_disp s _).trans (setReg_keepsAllBut_V _ 0xF#4 _)).trans
    (withDirty_keepsAllBut_dirty _ true)).mono (by simp)

theorem drawRows_keepsRegsBut (s : State) (x0 y0 : Nat) (rows : List Byte) :
    KeepsRegsBut [0xF#4] s (s.drawRows x0 y0 rows) :=
  setReg_keepsRegsBut (s.withDisp _) 0xF#4 _

/-- A state whose register file is the same leaves every register as it was. -/
theorem KeepsAllBut.regs {s t : State} {ps : List Part} (frame : KeepsAllBut ps s t) (kept : .V ∉ ps)
    (written : List Nibble) : KeepsRegsBut written s t :=
  fun r _ => frame .V kept r

/-! The instructions with a condition: what a next state says of it. -/

/-- An outcome is one next state at most. -/
theorem next_unique {r : Result} {t u : State} (answer : r = .next t) (known : r = .next u) : t = u :=
  Host.Outcome.next.inj (answer.symm.trans known)

/-- Where an instruction answers `u` if `P` holds and else faults, a next state says that `P` holds and that it is `u`. -/
theorem and_eq_of_next {r : Result} {P : Prop} {t u : State} {f : Fault} (ok : P → r = .next u)
    (bad : ¬ P → r = .fault f) (answer : r = .next t) : P ∧ t = u := by
  by_cases holds : P
  · exact ⟨holds, next_unique answer (ok holds)⟩
  · cases answer.symm.trans (bad holds)

variable {s t : State} {x y n : Nibble}

theorem exec_ret_next (answer : exec .ret s = .next t) :
    ∃ v rest, s.stack = v :: rest ∧ t = (s.withStack rest).withPc v := by
  cases stack_eq : s.stack with
  | nil => cases answer.symm.trans (exec_ret_nil stack_eq)
  | cons v rest => exact ⟨v, rest, rfl, next_unique answer (exec_ret_cons stack_eq)⟩

theorem exec_call_next {nnn : Addr12} (answer : exec (.call nnn) s = .next t) :
    s.params.stackLimit ≠ some s.stack.length ∧ t = (s.push s.pc).withPc (addrImm nnn) :=
  and_eq_of_next exec_call_ok (fun full => exec_call_full (not_not.mp full)) answer

theorem exec_storeBcd_next (answer : exec (.storeBcd x) s = .next t) :
    StoreOk s s.base 3 ∧ t = s.placeBytes s.base (decimalDigits (s.reg x)) :=
  and_eq_of_next exec_storeBcd_ok exec_storeBcd_fault answer

theorem exec_storeRegs_next (answer : exec (.storeRegs x) s = .next t) :
    StoreOk s s.base (x.toNat + 1) ∧ t = s.placeBytes s.base (s.regsThrough x) :=
  and_eq_of_next exec_storeRegs_ok exec_storeRegs_fault answer

theorem exec_loadRegs_next (answer : exec (.loadRegs x) s = .next t) :
    ReadOk s.base (x.toNat + 1) ∧ t = s.setRegs ((List.range (x.toNat + 1)).map fun k => s.byteAt (s.base + k)) :=
  and_eq_of_next exec_loadRegs_ok exec_loadRegs_fault answer

/-- The rows that an `n`-row draw reads, from `I` up. -/
def State.spriteRows (s : State) (n : Nat) : List Byte := (List.range n).map fun k => s.byteAt (s.base + k)

theorem exec_draw_next (answer : exec (.draw x y n) s = .next t) :
    ReadOk s.base n.toNat ∧
      t = s.drawRows (originColumn (s.reg x)) (originRow (s.reg y)) (s.spriteRows n.toNat) :=
  and_eq_of_next exec_draw_ok exec_draw_fault answer

theorem exec_skipKey_next (answer : exec (.skipKey x) s = .next t) : ∃ test, t = s.skipIf test := by
  by_cases in_range : (s.reg x).toNat < 16
  · exact ⟨_, next_unique answer (exec_skipKey_ok in_range)⟩
  · cases answer.symm.trans (exec_skipKey_fault in_range)

theorem exec_skipNotKey_next (answer : exec (.skipNotKey x) s = .next t) : ∃ test, t = s.skipIf test := by
  by_cases in_range : (s.reg x).toNat < 16
  · exact ⟨_, next_unique answer (exec_skipNotKey_ok in_range)⟩
  · cases answer.symm.trans (exec_skipNotKey_fault in_range)

theorem exec_waitKey_next (answer : exec (.waitKey x) s = .next t) : (∃ b, t = s.setReg x b) ∨ t = s.rewind := by
  cases lowest : s.lowestKey with
  | some k => exact .inl ⟨_, next_unique answer (exec_waitKey_some lowest)⟩
  | none => exact .inr (next_unique answer (exec_waitKey_none lowest))

/-! When an instruction faults. -/

/-- Settles O17: an instruction with a condition answers a next state where it holds and a fault where it does not; the
others answer a next state whatever the state. -/
theorem execFaultsExactlyWhen : Obligations.ExecFaultsExactlyWhen := by
  unfold Obligations.ExecFaultsExactlyWhen
  intro i s
  cases i with
  | ret =>
    refine ⟨fun nonempty => ?_, fun bad => ⟨_, exec_ret_nil (not_not.mp bad)⟩⟩
    obtain ⟨v, rest, stack_eq⟩ := List.exists_cons_of_ne_nil nonempty
    exact ⟨_, exec_ret_cons stack_eq⟩
  | call => exact ⟨fun ok => ⟨_, exec_call_ok ok⟩, fun bad => ⟨_, exec_call_full (not_not.mp bad)⟩⟩
  | draw => exact ⟨fun ok => ⟨_, exec_draw_ok ok⟩, fun bad => ⟨_, exec_draw_fault bad⟩⟩
  | storeBcd => exact ⟨fun ok => ⟨_, exec_storeBcd_ok ok⟩, fun bad => ⟨_, exec_storeBcd_fault bad⟩⟩
  | storeRegs => exact ⟨fun ok => ⟨_, exec_storeRegs_ok ok⟩, fun bad => ⟨_, exec_storeRegs_fault bad⟩⟩
  | loadRegs => exact ⟨fun ok => ⟨_, exec_loadRegs_ok ok⟩, fun bad => ⟨_, exec_loadRegs_fault bad⟩⟩
  | skipKey =>
    exact ⟨fun ok => ⟨_, exec_skipKey_ok (Nat.lt_succ_of_le ok)⟩,
      fun bad => ⟨_, exec_skipKey_fault fun in_range => bad (Nat.le_of_lt_succ in_range)⟩⟩
  | skipNotKey =>
    exact ⟨fun ok => ⟨_, exec_skipNotKey_ok (Nat.lt_succ_of_le ok)⟩,
      fun bad => ⟨_, exec_skipNotKey_fault fun in_range => bad (Nat.le_of_lt_succ in_range)⟩⟩
  | waitKey =>
    refine ⟨fun _ => ?_, fun bad => absurd trivial bad⟩
    cases lowest : s.lowestKey with
    | some k => exact ⟨_, exec_waitKey_some lowest⟩
    | none => exact ⟨_, exec_waitKey_none lowest⟩
  | _ => exact ⟨fun _ => ⟨_, rfl⟩, fun bad => absurd trivial bad⟩

/-! What an instruction leaves unchanged. -/

theorem exec_keepsAllBut {i : Instr} (answer : exec i s = .next t) : KeepsAllBut (partsWritten i) s t := by
  cases i with
  | cls => obtain rfl := Host.Outcome.next.inj answer; exact withDisp_keepsAllBut_disp s _
  | ret =>
    obtain ⟨v, rest, -, rfl⟩ := exec_ret_next answer
    exact ((withStack_keepsAllBut_stack s rest).trans (withPc_keepsAllBut_pc _ v)).mono (by simp [partsWritten])
  | call nnn =>
    obtain ⟨-, rfl⟩ := exec_call_next answer
    exact ((withStack_keepsAllBut_stack s _).trans (withPc_keepsAllBut_pc _ _)).mono (by simp [partsWritten])
  | skipKey => obtain ⟨test, rfl⟩ := exec_skipKey_next answer; exact withPc_keepsAllBut_pc s _
  | skipNotKey => obtain ⟨test, rfl⟩ := exec_skipNotKey_next answer; exact withPc_keepsAllBut_pc s _
  | jump | skipEqImm | skipNeqImm | skipEqReg | skipNeqReg | jumpOffset =>
    obtain rfl := Host.Outcome.next.inj answer; exact withPc_keepsAllBut_pc s _
  | loadImm | addImm | loadReg | orReg | andReg | xorReg | loadDelay =>
    obtain rfl := Host.Outcome.next.inj answer; exact setReg_keepsAllBut_V s _ _
  | addReg | subReg | shr | subnReg | shl =>
    obtain rfl := Host.Outcome.next.inj answer; exact setRegFlag_keepsAllBut_V s _ _ _
  | loadRegs => obtain ⟨-, rfl⟩ := exec_loadRegs_next answer; exact setRegs_keepsAllBut_V s _
  | random => obtain rfl := Host.Outcome.next.inj answer; exact randomWith_keepsAllBut _ _ _ s
  | draw => obtain ⟨-, rfl⟩ := exec_draw_next answer; exact drawRows_keepsAllBut s _ _ _
  | waitKey x =>
    rcases exec_waitKey_next answer with ⟨b, rfl⟩ | rfl
    · exact (setReg_keepsAllBut_V s x b).mono (by simp [partsWritten])
    · exact (withPc_keepsAllBut_pc s _).mono (by simp [partsWritten])
  | setDelay => obtain rfl := Host.Outcome.next.inj answer; exact withDT_keepsAllBut_DT s _
  | setSound => obtain rfl := Host.Outcome.next.inj answer; exact withST_keepsAllBut_ST s _
  | setI | addI | setIFont => obtain rfl := Host.Outcome.next.inj answer; exact withI_keepsAllBut_I s _
  | storeBcd => obtain ⟨-, rfl⟩ := exec_storeBcd_next answer; exact placeBytes_keepsAllBut_mem s _ _
  | storeRegs => obtain ⟨-, rfl⟩ := exec_storeRegs_next answer; exact placeBytes_keepsAllBut_mem s _ _

/-- A register above the range of a load stays. -/
theorem setRegs_range_keepsRegsBut (s : State) (a : Nat) (x : Nibble) :
    KeepsRegsBut (regsWritten (.loadRegs x)) s
      (s.setRegs ((List.range (x.toNat + 1)).map fun k => s.byteAt (a + k))) := by
  intro r unwritten
  have above : ¬ r.toNat < x.toNat + 1 := fun in_range =>
    unwritten (List.mem_map.mpr ⟨r.toNat, List.mem_range.mpr in_range, by simp⟩)
  rw [setRegs_range_reg, if_neg above]

theorem exec_keepsRegsBut {i : Instr} (answer : exec i s = .next t) : KeepsRegsBut (regsWritten i) s t := by
  have frame := exec_keepsAllBut answer
  cases i with
  | loadImm | addImm | loadReg | orReg | andReg | xorReg | loadDelay =>
    obtain rfl := Host.Outcome.next.inj answer; exact setReg_keepsRegsBut s _ _
  | addReg | subReg | shr | subnReg | shl =>
    obtain rfl := Host.Outcome.next.inj answer; exact setRegFlag_keepsRegsBut s _ _ _
  | random => obtain rfl := Host.Outcome.next.inj answer; exact setReg_keepsRegsBut s _ _
  | draw => obtain ⟨-, rfl⟩ := exec_draw_next answer; exact drawRows_keepsRegsBut s _ _ _
  | loadRegs x => obtain ⟨-, rfl⟩ := exec_loadRegs_next answer; exact setRegs_range_keepsRegsBut s _ x
  | waitKey x =>
    rcases exec_waitKey_next answer with ⟨b, rfl⟩ | rfl
    · exact setReg_keepsRegsBut s x b
    · exact (withPc_keepsAllBut_pc s _).regs (by simp) _
  | _ => exact frame.regs (by simp [partsWritten]) _

/-- Settles O18: the two frames of `exec`. -/
theorem execWritesOnlyItsParts : Obligations.ExecWritesOnlyItsParts := by
  unfold Obligations.ExecWritesOnlyItsParts
  exact fun i s t answer => ⟨exec_keepsAllBut answer, exec_keepsRegsBut answer⟩

end Sys2Proof.Machine
end

section
/-! The cycle (spec/40_cycle_step.md R120 to R125): the timer gate, fetch, dispatch. -/

namespace Sys2Proof.Machine

variable {s t : State} {w : Word} {i : Instr}

/-! What a cycle runs. -/

@[simp] theorem timerGate_fetch (s : State) (now : Time) : (s.timerGate now).fetch = s.fetch := rfl

theorem cycle_halted {c : FaultCode} (halted : s.halted = some c) (now : Time) : cycle now s = .next s := by
  simp only [cycle, halted]

theorem cycle_of_fetch (running : s.halted = none) (fetched : s.fetch = .ok w) (now : Time) :
    cycle now s = runWord w (s.timerGate now).advance := by
  simp only [cycle, running, fetchAndRun, timerGate_fetch, fetched, orRaise]

theorem cycle_of_fetch_error {f : Fault} (running : s.halted = none) (fault : s.fetch = .error f) (now : Time) :
    cycle now s = .fault f := by
  simp only [cycle, running, fetchAndRun, timerGate_fetch, fault, orRaise, raise]

theorem runWord_instr (decoded : decodeWord w = .instr i) (s : State) : runWord w s = exec i s := by
  simp only [runWord, decoded]

theorem runWord_unknown {u : Word} (decoded : decodeWord w = .unknown u) (s : State) : runWord w s = .next s := by
  simp only [runWord, decoded, execUnknown]

/-- The cycle at an instruction: the gate, the advance of `pc`, then the instruction (R120). -/
theorem cycle_of_decoded (running : s.halted = none) (inside : s.pc.toNat ≤ 0xFFE)
    (decoded : decodeWord (bigEndian (s.byteAt s.pc.toNat) (s.byteAt (s.pc.toNat + 1))) = .instr i) (now : Time) :
    cycle now s = exec i ((s.timerGate now).withPc (s.pc + 2)) :=
  (cycle_of_fetch running (fetch_ok inside) now).trans (runWord_instr decoded _)

/-- What a cycle that goes on has done: nothing on a halted machine; else fetch was inside memory and the advanced state
was left as it is, at an unknown word, or handed to an instruction. -/
theorem cycle_next_cases {now : Time} (answer : cycle now s = .next t) :
    t = s ∨ s.pc.toNat ≤ 0xFFE ∧
      (t = (s.timerGate now).advance ∨ ∃ i, exec i (s.timerGate now).advance = .next t) := by
  cases latch : s.halted with
  | some c => exact .inl (next_unique answer (cycle_halted latch now))
  | none =>
    by_cases inside : s.pc.toNat ≤ 0xFFE
    · rw [cycle_of_fetch latch (fetch_ok inside)] at answer
      refine .inr ⟨inside, ?_⟩
      cases decoded : decodeWord (bigEndian (s.byteAt s.pc.toNat) (s.byteAt (s.pc.toNat + 1))) with
      | instr i => exact .inr ⟨i, (runWord_instr decoded _).symm.trans answer⟩
      | unknown u => exact .inl (next_unique answer (runWord_unknown decoded _))
    · cases answer.symm.trans (cycle_of_fetch_error latch (fetch_error (by omega)) now)

/-- Settles O6: the cycle at an instruction, at the time given and at the time that `step` samples. -/
theorem stepRunsDecodedInstruction : Obligations.StepRunsDecodedInstruction := by
  unfold Obligations.StepRunsDecodedInstruction
  exact fun s i running inside decoded =>
    ⟨cycle_of_decoded running inside decoded, cycle_of_decoded running inside decoded _⟩

/-- What comes before the instruction in a cycle touches `pc`, the timers, their reference time and the draw counter. -/
theorem gate_advance_keepsAllBut (s : State) (now : Time) :
    KeepsAllBut [.pc, .DT, .ST, .tRef, .draws] s (s.timerGate now).advance :=
  (timerGate_keepsAllBut s now).trans (withPc_keepsAllBut_pc _ _)

/-- Settles O7: the state is the gated one with `pc` advanced, and the diagnostic carries the word decoded. -/
theorem unknownOpcodeIsNoOp : Obligations.UnknownOpcodeIsNoOp := by
  unfold Obligations.UnknownOpcodeIsNoOp
  intro s w now running inside decoded
  have fetched := fetch_ok inside
  refine ⟨by simp only [State.diagnostic, running, fetched, decoded], (s.timerGate now).advance, ?_, rfl, rfl, rfl, rfl,
    gate_advance_keepsAllBut s now⟩
  rw [cycle_of_fetch running fetched, runWord_unknown decoded]

/-- Settles O8: the two cases of fetch; of a read that leaves memory the greater of `pc` and 0x1000 is the first failing
address. -/
theorem fetchReadsOrFaults : Obligations.FetchReadsOrFaults := by
  unfold Obligations.FetchReadsOrFaults
  intro s
  refine ⟨fun inside => ⟨_, fetch_ok inside, bigEndian_toNat _ _⟩, fun outside running now => ?_⟩
  have first_failing : max s.pc.toNat 0x1000 = if s.pc.toNat > 0xFFF then s.pc.toNat else 0x1000 := by
    split_ifs <;> omega
  rw [cycle_of_fetch_error running (fetch_error outside), first_failing]

/-- Settles O10: the latch is tested before the gate, whatever the time. -/
theorem haltedMachineDoesNotStep : Obligations.HaltedMachineDoesNotStep := by
  unfold Obligations.HaltedMachineDoesNotStep
  exact fun s c halted => ⟨cycle_halted halted, cycle_halted halted _⟩

/-! The timer gate (R121). -/

theorem tickDue_iff (s : State) (now : Time) : s.tickDue now = true ↔ s.params.clockHz ≤ 60 * (now - s.tRef) :=
  decide_eq_true_iff

theorem timerNext_not_due (timer : Byte) : timerNext false timer = timer :=
  BitVec.eq_of_toNat_eq (timerNext_toNat false timer)

/-- Settles O9: the gate is one saturating decrement where a tick is due and the identity on timers where none is. -/
theorem timerGateTicks : Obligations.TimerGateTicks := by
  unfold Obligations.TimerGateTicks
  refine fun s now => ⟨fun passed => ?_, fun not_passed => ?_, timerGate_keepsAllBut s now⟩
  · have due := (tickDue_iff s now).mpr passed
    simp only [timerGate_DT, timerGate_ST, timerGate_tRef, due, timerNext_toNat, if_true, and_self]
  · have not_due : s.tickDue now = false := by
      rw [← Bool.not_eq_true, tickDue_iff]
      exact Nat.not_le.mpr not_passed
    simp [not_due, timerNext_not_due]

/-- Settles O57: both instructions run on the gated state, so `Fx07` copies the timer after the gate and `Fx15` overwrites
it. -/
theorem tickBeforeExecute : Obligations.TickBeforeExecute := by
  unfold Obligations.TickBeforeExecute
  refine fun x s now running inside => ⟨fun decoded => ?_, fun decoded => ?_⟩
  · refine ⟨_, cycle_of_decoded running inside decoded now, ?_⟩
    rw [setReg_reg_same, withPc_DT, timerGate_DT, timerNext_toNat]
    exact if_congr (tickDue_iff s now) rfl rfl
  · exact ⟨_, cycle_of_decoded running inside decoded now, rfl⟩

/-! The self-jump. -/

/-- Settles O21: the jump writes back the `pc` that it was fetched from, so the cycle answers the gated state itself, in
which memory and `pc` are as before. -/
theorem selfJumpStaysEnded : Obligations.SelfJumpStaysEnded := by
  unfold Obligations.SelfJumpStaysEnded
  rintro s a now ⟨running, pc_eq, fetched⟩
  have target_eq : addrImm a = s.pc := BitVec.eq_of_toNat_eq ((addrImm_toNat a).trans pc_eq.symm)
  refine ⟨s.timerGate now, ?_, ⟨running, pc_eq, fetched⟩, timerGate_keepsAllBut s now⟩
  calc cycle now s = exec (.jump a) (s.timerGate now).advance :=
        (cycle_of_fetch running fetched now).trans (runWord_instr (decodeWord_encode _) _)
    _ = .next ((s.timerGate now).withPc (addrImm a)) := rfl
    _ = .next (s.timerGate now) := by rw [target_eq]; rfl

end Sys2Proof.Machine
end

section
/-! What every cycle keeps: the invariant, the reserved range, the key table, the parameters and the latch
(spec/10_state.md R23, R29, R31, R33, spec/20_memory.md R61, R63). -/

namespace Sys2Proof.Machine

variable {s t : State} {i : Instr} {now : Time}

/-! What an instruction does to the pieces of state that the invariant speaks of. -/

/-- Memory after an instruction: the list is untouched, or bytes that may be stored have been laid, all else equal. -/
theorem exec_mem_cases (answer : exec i s = .next t) :
    t.mem = s.mem ∨ ∃ a bs, 0 < bs.length ∧ StoreOk s a bs.length ∧ t = s.placeBytes a bs := by
  cases i with
  | storeBcd x =>
    obtain ⟨ok, rfl⟩ := exec_storeBcd_next answer
    exact .inr ⟨s.base, decimalDigits (s.reg x), Nat.succ_pos 2, ok, rfl⟩
  | storeRegs x =>
    obtain ⟨ok, rfl⟩ := exec_storeRegs_next answer
    have length_eq := regsThrough_length s x
    exact .inr ⟨s.base, s.regsThrough x, by omega, by rwa [length_eq], rfl⟩
  | ret => obtain ⟨v, rest, -, rfl⟩ := exec_ret_next answer; exact .inl rfl
  | call => obtain ⟨-, rfl⟩ := exec_call_next answer; exact .inl rfl
  | skipKey => obtain ⟨test, rfl⟩ := exec_skipKey_next answer; exact .inl rfl
  | skipNotKey => obtain ⟨test, rfl⟩ := exec_skipNotKey_next answer; exact .inl rfl
  | loadRegs => obtain ⟨-, rfl⟩ := exec_loadRegs_next answer; exact .inl rfl
  | draw => obtain ⟨-, rfl⟩ := exec_draw_next answer; exact .inl rfl
  | waitKey => rcases exec_waitKey_next answer with ⟨b, rfl⟩ | rfl <;> exact .inl rfl
  | _ => obtain rfl := Host.Outcome.next.inj answer; exact .inl rfl

/-- The program counter after an instruction: where fetch has advanced it to, one word further, one word back, a computed
target, or a return address. -/
theorem exec_pc_cases (answer : exec i s = .next t) :
    t.pc = s.pc ∨ t.pc = s.pc + 2 ∨ t.pc = s.pc - 2 ∨ t.pc.toNat ≤ 0x10FE ∨ t.pc ∈ s.stack := by
  have skip_cases (test : Bool) : (s.skipIf test).pc = s.pc ∨ (s.skipIf test).pc = s.pc + 2 := by
    cases test
    · exact .inl rfl
    · exact .inr rfl
  have frame := exec_keepsAllBut answer
  cases i with
  | jump nnn =>
    obtain rfl := Host.Outcome.next.inj answer
    have target_eq := addrImm_toNat nnn
    exact .inr (.inr (.inr (.inl (by rw [withPc_pc]; omega))))
  | jumpOffset nnn =>
    obtain rfl := Host.Outcome.next.inj answer
    have target_eq := addrImm_add_regWide_toNat nnn (s.reg 0#4)
    exact .inr (.inr (.inr (.inl (by rw [withPc_pc]; omega))))
  | call nnn =>
    obtain ⟨-, rfl⟩ := exec_call_next answer
    have target_eq := addrImm_toNat nnn
    exact .inr (.inr (.inr (.inl (by rw [withPc_pc]; omega))))
  | ret =>
    obtain ⟨v, rest, stack_eq, rfl⟩ := exec_ret_next answer
    exact .inr (.inr (.inr (.inr (by simp [stack_eq]))))
  | skipEqImm | skipNeqImm | skipEqReg | skipNeqReg =>
    obtain rfl := Host.Outcome.next.inj answer
    exact (skip_cases _).imp_right .inl
  | skipKey => obtain ⟨test, rfl⟩ := exec_skipKey_next answer; exact (skip_cases test).imp_right .inl
  | skipNotKey => obtain ⟨test, rfl⟩ := exec_skipNotKey_next answer; exact (skip_cases test).imp_right .inl
  | waitKey =>
    rcases exec_waitKey_next answer with ⟨b, rfl⟩ | rfl
    · exact .inl rfl
    · exact .inr (.inr (.inl rfl))
  | _ => exact .inl (frame .pc (by simp [partsWritten]))

/-- The stack after an instruction holds what it held, and `pc` where a call has pushed it. -/
theorem exec_stack_mem (answer : exec i s = .next t) {v : Word} (on_stack : v ∈ t.stack) : v ∈ s.stack ∨ v = s.pc := by
  have frame := exec_keepsAllBut answer
  cases i with
  | ret =>
    obtain ⟨u, rest, stack_eq, rfl⟩ := exec_ret_next answer
    exact .inl (stack_eq ▸ List.mem_cons_of_mem u on_stack)
  | call =>
    obtain ⟨-, rfl⟩ := exec_call_next answer
    exact (List.mem_cons.mp on_stack).symm
  | _ => exact .inl (frame .stack (by simp [partsWritten]) ▸ on_stack)

/-! The key table, the parameters and the latch. -/

/-- No instruction lists the key table, the parameters or the latch among the pieces that it writes. -/
theorem keys_params_halted_notMem_partsWritten (i : Instr) :
    .keys ∉ partsWritten i ∧ .params ∉ partsWritten i ∧ .halted ∉ partsWritten i := by
  cases i <;> simp [partsWritten]

theorem exec_params (answer : exec i s = .next t) : t.params = s.params := by
  obtain ⟨-, params, -⟩ := keys_params_halted_notMem_partsWritten i
  exact exec_keepsAllBut answer .params params

/-- Settles O16: the gate, the advance and every instruction keep the three. -/
theorem cycleKeepsKeysParamsLatch : Obligations.CycleKeepsKeysParamsLatch := by
  unfold Obligations.CycleKeepsKeysParamsLatch
  intro now s t answer
  rcases cycle_next_cases answer with rfl | ⟨-, rfl | ⟨i, executed⟩⟩
  · exact ⟨rfl, rfl, rfl⟩
  · exact ⟨rfl, rfl, rfl⟩
  · have frame := exec_keepsAllBut executed
    obtain ⟨keys, params, halted⟩ := keys_params_halted_notMem_partsWritten i
    exact ⟨frame .keys keys, frame .params params, frame .halted halted⟩

/-! The invariant. -/

/-- An instruction keeps memory in canonical form: a store that may be made ends inside memory. -/
theorem exec_keeps_wf (answer : exec i s = .next t) (canonical : Memory.wf s.params s.mem = true) :
    Memory.wf t.params t.mem = true := by
  rcases exec_mem_cases answer with same | ⟨a, bs, nonempty, ok, rfl⟩
  · rwa [exec_params answer, same]
  · exact placeBytes_wf bs (ok.add_le nonempty) canonical

/-- An instruction keeps the invariant where fetch has advanced `pc` past a word inside memory: a skip reaches 0x1002 at
most, a replay goes back no further than the instruction, and a call pushes at most 0x1000. -/
theorem exec_keeps_inv (answer : exec i s = .next t) (inv : s.Inv) (low : 2 ≤ s.pc.toNat) (high : s.pc.toNat ≤ 0x1000) :
    t.Inv := by
  obtain ⟨canonical, -, returns⟩ := inv
  refine ⟨exec_keeps_wf answer canonical, ?_, fun v on_stack => ?_⟩
  · rcases exec_pc_cases answer with same | skipped | replayed | computed | returned
    · rw [same]; omega
    · rw [skipped]; bv_omega
    · rw [replayed]; bv_omega
    · exact computed
    · have := returns t.pc returned; omega
  · rcases exec_stack_mem answer on_stack with kept | rfl
    · exact returns v kept
    · exact high

theorem cycle_keeps_inv (inv : s.Inv) (answer : cycle now s = .next t) : t.Inv := by
  rcases cycle_next_cases answer with rfl | ⟨inside, outcome⟩
  · exact inv
  · have advanced : (s.timerGate now).advance.pc.toNat = s.pc.toNat + 2 := by
      rw [advance_pc, timerGate_pc]; bv_omega
    obtain ⟨canonical, -, returns⟩ := inv
    have advanced_inv : (s.timerGate now).advance.Inv := ⟨canonical, by omega, returns⟩
    rcases outcome with rfl | ⟨i, executed⟩
    · exact advanced_inv
    · exact exec_keeps_inv executed advanced_inv (by omega) (by omega)

/-- Settles O13: the gated and advanced state meets the invariant, and every instruction keeps it from there. -/
theorem cycleKeepsInvariant : Obligations.CycleKeepsInvariant := by
  unfold Obligations.CycleKeepsInvariant
  exact fun _ _ _ => cycle_keeps_inv

/-- Settles O14: `step` is the cycle at the time it samples. -/
theorem stepKeepsInvariant : Obligations.StepKeepsInvariant := by
  unfold Obligations.StepKeepsInvariant
  exact fun _ _ => cycle_keeps_inv

/-- Settles O12: with no byte to lay, construction answers the initial state, whose memory list and stack are empty. -/
theorem resetSatisfiesInvariant : Obligations.ResetSatisfiesInvariant := by
  unfold Obligations.ResetSatisfiesInvariant
  exact ⟨construct_ok (Nat.zero_le _), ⟨rfl, by decide, fun _ none_there => absurd none_there List.not_mem_nil⟩,
    fun _ _ => rfl⟩

/-! The reserved range. -/

/-- Where low memory is protected, an instruction leaves every byte below 0x200: a store that may be made starts above. -/
theorem exec_keeps_reserved (answer : exec i s = .next t) (protect : s.params.protectLow = true) {a : Nat}
    (reserved : a < 0x200) : t.byteAt a = s.byteAt a := by
  rcases exec_mem_cases answer with same | ⟨b, bs, -, ok, rfl⟩
  · rw [State.byteAt, State.byteAt, exec_params answer, same]
  · refine placeBytes_other bs fun k in_range => ?_
    have above := (ok k in_range).2 protect
    omega

theorem cycle_keeps_reserved (answer : cycle now s = .next t) (protect : s.params.protectLow = true) {a : Nat}
    (reserved : a < 0x200) : t.byteAt a = s.byteAt a := by
  rcases cycle_next_cases answer with rfl | ⟨-, rfl | ⟨i, executed⟩⟩
  · rfl
  · rfl
  · exact exec_keeps_reserved executed protect reserved

/-- Settles O15: the bytes stay, and their reset content with the parameters, which stay too. -/
theorem reservedRangeNeverWritten : Obligations.ReservedRangeNeverWritten := by
  unfold Obligations.ReservedRangeNeverWritten
  intro now s t protect answer
  have kept : ∀ a, a < 0x200 → t.byteAt a = s.byteAt a := fun a => cycle_keeps_reserved answer protect
  obtain ⟨-, params_eq, -⟩ := cycleKeepsKeysParamsLatch now s t answer
  refine ⟨kept, fun intact a reserved => ?_⟩
  rw [kept a reserved, params_eq, intact a reserved]

end Sys2Proof.Machine
end

section
/-! The state that no instruction reads (spec/10_state.md R26, R28, R30, R31). -/

namespace Sys2Proof.Machine

/-- The state with other values of the sound timer, `dirty`, the reference time and the latch. -/
def State.withHidden (s : State) (b : Byte) (d : Bool) (r : Time) (h : Option FaultCode) : State :=
  (((s.withST b).withDirty d).withTRef r).withHalted h

/-- What is left of a state when those four are put at fixed values. -/
def State.visible (s : State) : State := s.withHidden 0 false 0 none

/-- The instruction has the same outcome on `u` as on `s`: the same fault, or next states alike in what is visible. -/
def RunsAlike (i : Instr) (s u : State) : Prop :=
  (∀ f, exec i s = .fault f → exec i u = .fault f) ∧
    ∀ t, exec i s = .next t → ∃ t', exec i u = .next t' ∧ t'.visible = t.visible

variable {i : Instr} {s u s' u' : State}

theorem runsAlike_of_next (on_s : exec i s = .next s') (on_u : exec i u = .next u')
    (alike : u'.visible = s'.visible) : RunsAlike i s u := by
  refine ⟨fun f fault => ?_, fun t answer => ⟨u', on_u, ?_⟩⟩
  · cases on_s.symm.trans fault
  · rw [alike, next_unique on_s answer]

theorem runsAlike_of_fault {f : Fault} (on_s : exec i s = .fault f) (on_u : exec i u = .fault f) :
    RunsAlike i s u := by
  refine ⟨fun g fault => on_u.trans (on_s.symm.trans fault), fun t answer => ?_⟩
  cases on_s.symm.trans answer

/-- Laying bytes does not read the hidden state. -/
theorem placeBytes_withHidden_visible (s : State) (b : Byte) (d : Bool) (r : Time) (h : Option FaultCode) (a : Nat)
    (bs : List Byte) : ((s.withHidden b d r h).placeBytes a bs).visible = (s.placeBytes a bs).visible := by
  have same_mem : ((s.withHidden b d r h).placeBytes a bs).mem = (s.placeBytes a bs).mem :=
    placeBytes_congr bs a rfl rfl
  rw [placeBytes_withMem bs (s.withHidden b d r h), placeBytes_withMem bs s, same_mem]
  rfl

/-- Settles O19: the conditions and results of the instructions are made of the visible state alone, so each of its cases
has the same outcome on both states. -/
theorem hiddenStateUnread : Obligations.HiddenStateUnread := by
  unfold Obligations.HiddenStateUnread
  intro i s b d r h
  change RunsAlike i s (s.withHidden b d r h)
  cases i with
  | ret =>
    cases stack_eq : s.stack with
    | nil => exact runsAlike_of_fault (exec_ret_nil stack_eq) (exec_ret_nil stack_eq)
    | cons v rest => exact runsAlike_of_next (exec_ret_cons stack_eq) (exec_ret_cons stack_eq) rfl
  | call =>
    by_cases full : s.params.stackLimit = some s.stack.length
    · exact runsAlike_of_fault (exec_call_full full) (exec_call_full full)
    · exact runsAlike_of_next (exec_call_ok full) (exec_call_ok full) rfl
  | draw x y n =>
    by_cases ok : ReadOk s.base n.toNat
    · exact runsAlike_of_next (exec_draw_ok ok) (exec_draw_ok ok) rfl
    · exact runsAlike_of_fault (exec_draw_fault ok) (exec_draw_fault ok)
  | loadRegs x =>
    by_cases ok : ReadOk s.base (x.toNat + 1)
    · exact runsAlike_of_next (exec_loadRegs_ok ok) (exec_loadRegs_ok ok) rfl
    · exact runsAlike_of_fault (exec_loadRegs_fault ok) (exec_loadRegs_fault ok)
  | storeBcd x =>
    by_cases ok : StoreOk s s.base 3
    · exact runsAlike_of_next (exec_storeBcd_ok ok) (exec_storeBcd_ok ok)
        (placeBytes_withHidden_visible s b d r h s.base (decimalDigits (s.reg x)))
    · exact runsAlike_of_fault (exec_storeBcd_fault ok) (exec_storeBcd_fault ok)
  | storeRegs x =>
    by_cases ok : StoreOk s s.base (x.toNat + 1)
    · exact runsAlike_of_next (exec_storeRegs_ok ok) (exec_storeRegs_ok ok)
        (placeBytes_withHidden_visible s b d r h s.base (s.regsThrough x))
    · exact runsAlike_of_fault (exec_storeRegs_fault ok) (exec_storeRegs_fault ok)
  | skipKey x =>
    by_cases in_range : (s.reg x).toNat < 16
    · exact runsAlike_of_next (exec_skipKey_ok in_range) (exec_skipKey_ok (s := s.withHidden b d r h) in_range) rfl
    · exact runsAlike_of_fault (exec_skipKey_fault in_range) (exec_skipKey_fault in_range)
  | skipNotKey x =>
    by_cases in_range : (s.reg x).toNat < 16
    · exact runsAlike_of_next (exec_skipNotKey_ok in_range) (exec_skipNotKey_ok (s := s.withHidden b d r h) in_range) rfl
    · exact runsAlike_of_fault (exec_skipNotKey_fault in_range) (exec_skipNotKey_fault in_range)
  | waitKey =>
    cases lowest : s.lowestKey with
    | some k => exact runsAlike_of_next (exec_waitKey_some lowest) (exec_waitKey_some lowest) rfl
    | none => exact runsAlike_of_next (exec_waitKey_none lowest) (exec_waitKey_none lowest) rfl
  | _ => exact runsAlike_of_next rfl rfl rfl

end Sys2Proof.Machine
end

section
/-! Reset from an image (spec/70_reset_and_hazards.md R271, R272), `display()` and the fault latch under the host's calls
(spec/10_state.md R31, R36, spec/60_exceptions.md R242). -/

namespace Sys2Proof.Machine

/-! Reset. -/

theorem construct_too_large {p : Params} {now : Time} {bytes : List Byte} (large : 3584 < bytes.length) :
    construct p now (some bytes) = .fault (.imageTooLarge bytes.length) :=
  if_pos large

/-- The font table lies below 0x200, so its bytes are the reset content there. -/
theorem resetByte_font (p : Params) (k : Nat) (in_font : k < 80) :
    p.resetByte (p.fontBase.val + k) = p.fontData[k] := by
  have base_le : p.fontBase.val < 0x1B1 := p.fontBase.isLt
  rw [Params.resetByte, if_pos (by omega), dif_pos (by omega)]
  simp only [Nat.add_sub_cancel_left]

theorem resetByte_other {p : Params} {a : Nat} (outside : ¬ (p.fontBase.val ≤ a ∧ a < p.fontBase.val + 80)) :
    p.resetByte a = 0x00 := by
  rw [Params.resetByte, dif_neg outside, ite_self]
  rfl

theorem initial_byteAt (p : Params) (now : Time) (a : Nat) : (State.initial p now).byteAt a = p.resetByte a := rfl

/-- Settles O11: the image is laid over the reset content from 0x200 up, which the font lies below, and laying changes
memory alone. -/
theorem constructLoadsImage : Obligations.ConstructLoadsImage := by
  unfold Obligations.ConstructLoadsImage
  refine fun p now => ⟨rfl, fun bytes => ⟨construct_too_large, fun fits => ⟨_, construct_ok fits, ?_⟩⟩⟩
  have other {a : Nat} (outside : ¬ (0x200 ≤ a ∧ a < 0x200 + bytes.length)) :
      ((State.initial p now).placeBytes 0x200 bytes).byteAt a = p.resetByte a :=
    placeBytes_other bytes fun k in_range => by omega
  refine ⟨fun k in_image => placeBytes_same bytes (by omega) rfl in_image, fun k in_font => ?_,
    fun a not_image not_font => (other not_image).trans (resetByte_other not_font), ?_⟩
  · have base_le : p.fontBase.val < 0x1B1 := p.fontBase.isLt
    rw [other (by omega), resetByte_font]
  · rw [placeBytes_withMem]
    refine ⟨fun r => ?_, rfl, rfl, rfl, rfl, rfl, pixel_blankDisplay, rfl, fun k in_range => ?_, rfl, rfl, rfl⟩
    · exact Vector.getElem_replicate _
    · exact Vector.getElem_replicate _

/-! `display()`. -/

theorem pixel_of_lt (d : Display) {r : Nat} (in_grid : r < 32) (c : Nat) : Display.pixel d r c = d[r].getMsbD c :=
  dif_pos in_grid

/-- Settles O24: the snapshot is the display, whose rows hold the pixels from the most significant bit down. -/
theorem displayReadClearsDirty : Obligations.DisplayReadClearsDirty := by
  unfold Obligations.DisplayReadClearsDirty
  exact fun s => ⟨fun r in_grid c _ => (pixel_of_lt s.disp in_grid c).symm, rfl, withDirty_keepsAllBut_dirty s false⟩

/-! The latch. -/

theorem cycleLatched_fault {s : State} {f : Fault} (fault : step s = .fault f) : cycleLatched s = latchFault f s := by
  simp only [cycleLatched, fault]

/-- A halted machine does not step (R125), so the host's `cycle` leaves it as it is. -/
theorem cycleLatched_halted {s : State} {c : FaultCode} (halted : s.halted = some c) : cycleLatched s = s := by
  have stays : step s = .next s := cycle_halted halted _
  simp only [cycleLatched, stays]

theorem hostCall_keeps_latch {s : State} {c : FaultCode} (halted : s.halted = some c) (call : HostCall) :
    (hostCall s call).halted = some c := by
  cases call with
  | cycle => exact (congrArg State.halted (cycleLatched_halted halted)).trans halted
  | setKeys | display | beep => exact halted

theorem hostRun_keeps_latch (calls : List HostCall) : ∀ {s : State} {c : FaultCode}, s.halted = some c →
    (hostRun s calls).halted = some c := by
  induction calls with
  | nil => exact fun halted => halted
  | cons call calls ih => exact fun halted => ih (hostCall_keeps_latch halted call)

/-- Settles O26: the faulting cycle sets the latch, and no later call changes a latch that is set. -/
theorem faultLatchesForever : Obligations.FaultLatchesForever := by
  unfold Obligations.FaultLatchesForever
  intro s f calls fault
  exact hostRun_keeps_latch calls (congrArg State.halted (cycleLatched_fault fault))

end Sys2Proof.Machine
end

section
/-! The rest of control flow, the ALU, the index register and memory (spec/41_control_flow.md, spec/42_alu.md,
spec/43_index_memory.md). -/

namespace Sys2Proof.Machine

/-! Calls. -/

/-- Settles O29: the two cases of `exec_call_full` and `exec_call_ok`. -/
theorem callPushesReturnAddress : Obligations.CallPushesReturnAddress := by
  unfold Obligations.CallPushesReturnAddress
  refine fun nnn s => ⟨decodeWord_encode (.call nnn), exec_call_full, fun room => ?_⟩
  have frame : KeepsAllBut [.pc, .stack] s ((s.push s.pc).withPc (addrImm nnn)) :=
    (withStack_keepsAllBut_stack s _).trans (withPc_keepsAllBut_pc _ _)
  exact ⟨_, exec_call_ok room, rfl, addrImm_toNat nnn, frame⟩

/-- Settles O20: the call leaves `pc` on top of the stack, and the return takes it from there. -/
theorem callThenReturnRestores : Obligations.CallThenReturnRestores := by
  unfold Obligations.CallThenReturnRestores
  intro s t nnn later answer
  obtain ⟨-, rfl⟩ := exec_call_next answer
  exact ⟨_, exec_ret_cons (v := s.pc) (rest := s.stack) rfl, rfl, rfl⟩

/-! Shifts and the reversed difference. -/

theorem lowBitFlag_toNat (a : Byte) : (lowBitFlag a).toNat = a.toNat % 2 := by
  rw [lowBitFlag, BitVec.toNat_and]
  exact Nat.and_one_is_mod _

theorem highBitFlag_toNat (a : Byte) : (highBitFlag a).toNat = if 128 ≤ a.toNat then 1 else 0 := by
  rw [highBitFlag, BitVec.toNat_ushiftRight, Nat.shiftRight_eq_div_pow]
  split_ifs <;> omega

theorem shiftRight_one_toNat (a : Byte) : (a >>> 1).toNat = a.toNat / 2 := by
  rw [BitVec.toNat_ushiftRight, Nat.shiftRight_eq_div_pow, pow_one]

theorem shiftLeft_one_toNat (a : Byte) : (a <<< 1).toNat = 2 * a.toNat % 256 := by
  rw [BitVec.toNat_shiftLeft, Nat.shiftLeft_eq, pow_one, Nat.mul_comm]

/-- Settles O41: the result is the halved byte and the flag the bit shifted out. -/
theorem shiftRightInPlace : Obligations.ShiftRightInPlace := by
  unfold Obligations.ShiftRightInPlace
  exact fun x y s => ⟨decodeWord_encode (.shr x y),
    exec_setRegFlag_toNat rfl (shiftRight_one_toNat _) (lowBitFlag_toNat _)⟩

/-- Settles O42: the result is the wrapped difference with Vy as the minuend, and the flag is 1 without a borrow. -/
theorem subnSetsNoBorrow : Obligations.SubnSetsNoBorrow := by
  unfold Obligations.SubnSetsNoBorrow
  exact fun x y s => ⟨decodeWord_encode (.subnReg x y),
    exec_setRegFlag_toNat rfl (subWrap_toNat _ _) (noBorrowFlag_toNat _ _)⟩

/-- Settles O43: the result is the doubled byte, wrapped, and the flag the bit shifted out. -/
theorem shiftLeftInPlace : Obligations.ShiftLeftInPlace := by
  unfold Obligations.ShiftLeftInPlace
  exact fun x y s => ⟨decodeWord_encode (.shl x y),
    exec_setRegFlag_toNat rfl (shiftLeft_one_toNat _) (highBitFlag_toNat _)⟩

/-! The glyph address. -/

/-- The glyph address does not wrap, since the font table ends below 0x200 (R182). -/
theorem fontAddr_toNat (p : Params) (v : Byte) : (fontAddr p v).toNat = p.fontBase.val + 5 * (v.toNat % 16) := by
  have base_le : p.fontBase.val < 0x1B1 := p.fontBase.isLt
  have low_nibble : (v &&& 0x0F).toNat = v.toNat % 16 := Nat.and_two_pow_sub_one_eq_mod v.toNat 4
  rw [fontAddr, low_nibble, BitVec.toNat_ofNat, Nat.mod_eq_of_lt (by omega)]

/-- Settles O46: the address is that of the low nibble's glyph, at most 0x1B0 + 75. -/
theorem setIndexToGlyph : Obligations.SetIndexToGlyph := by
  unfold Obligations.SetIndexToGlyph
  intro x s
  have base_le : s.params.fontBase.val < 0x1B1 := s.params.fontBase.isLt
  have address := fontAddr_toNat s.params (s.reg x)
  exact ⟨decodeWord_encode (.setIFont x), s.withI (fontAddr s.params (s.reg x)), rfl, address,
    by rw [withI_I]; omega, withI_keepsAllBut_I s _⟩

/-! A store over the next instruction. -/

/-- Settles O22: the store covers the two bytes at `pc`, so fetch is inside memory and reads what `Fx55` laid there. -/
theorem storeSeenByNextFetch : Obligations.StoreSeenByNextFetch := by
  unfold Obligations.StoreSeenByNextFetch
  intro x s t two_bytes I_eq canonical answer
  obtain ⟨ok, -⟩ := exec_storeRegs_next answer
  obtain ⟨-, stores, -⟩ := storeRegisterRange x s
  obtain ⟨u, answer_u, stored, -, frame⟩ := stores ok
  obtain rfl := next_unique answer answer_u
  have pc_eq : t.pc = s.I := Eq.trans (frame .pc (by simp)) I_eq.symm
  have second_ok : s.I.toNat + 1 ≤ 0xFFF := (ok 1 (by omega)).1
  have high : t.byteAt s.I.toNat = s.reg 0#4 := stored canonical 0#4 (Nat.zero_le _)
  have low : t.byteAt (s.I.toNat + 1) = s.reg 1#4 := stored canonical 1#4 two_bytes
  rw [fetch_ok (by rw [pc_eq]; omega), pc_eq, high, low]

end Sys2Proof.Machine
end

section
/-! The display instructions (spec/44_display.md R200 to R202). -/

namespace Sys2Proof.Machine

/-- Settles O50: the display becomes the blank one. -/
theorem clearScreen : Obligations.ClearScreen := by
  unfold Obligations.ClearScreen
  exact ⟨decodeWord_encode .cls, fun s => ⟨s.withDisp blankDisplay, rfl, pixel_blankDisplay,
    withDisp_keepsAllBut_disp s _⟩⟩

/-- `spriteBit` in terms of the rows read: bit 7 of row `r - y0` is at column `x0`. -/
theorem spriteBit_eq_rows (s : State) (x0 y0 n r c : Nat) :
    spriteBit s x0 y0 n r c =
      (decide (y0 ≤ r ∧ r < y0 + (s.spriteRows n).length ∧ x0 ≤ c ∧ c < x0 + 8) &&
        (((s.spriteRows n)[r - y0]?).getD 0).getMsbD (c - x0)) := by
  have length_eq : (s.spriteRows n).length = n := by rw [State.spriteRows, List.length_map, List.length_range]
  rw [length_eq, spriteBit]
  by_cases inside : y0 ≤ r ∧ r < y0 + n ∧ x0 ≤ c ∧ c < x0 + 8
  · have in_rows : r - y0 < n := by omega
    have in_byte : c - x0 < 8 := by omega
    have row_eq : (s.spriteRows n)[r - y0]? = some (s.byteAt (s.I.toNat + (r - y0))) := by
      rw [State.spriteRows, List.getElem?_map, List.getElem?_range in_rows]
      rfl
    rw [row_eq, Option.getD_some, BitVec.getMsbD, decide_eq_true in_byte, Bool.true_and]
  · rw [decide_eq_false inside, Bool.false_and, Bool.false_and]

/-- A draw ends with the collision flag in VF. -/
theorem drawRows_reg_VF (s : State) (x0 y0 : Nat) (rows : List Byte) :
    (s.drawRows x0 y0 rows).reg 0xF#4 = collisionFlag (Display.collides s.disp x0 y0 rows) :=
  setReg_reg_same (s.withDisp _) 0xF#4 _

section Draw

variable {s t : State} {x y n : Nibble}

theorem draw_pixel (answer : exec (.draw x y n) s = .next t) {r c : Nat} (row : r < 32) (column : c < 64) :
    Display.pixel t.disp r c =
      (Display.pixel s.disp r c ^^ spriteBit s ((s.reg x).toNat % 64) ((s.reg y).toNat % 32) n.toNat r c) := by
  obtain ⟨-, rfl⟩ := exec_draw_next answer
  rw [spriteBit_eq_rows]
  exact toggle_pixel _ _ s.disp _ r c row column

/-- A 1 bit of the sprite that `Dxyn` draws lands on a lit pixel (R201). -/
def Collision (s : State) (x y n : Nibble) : Prop :=
  ∃ r c, r < 32 ∧ c < 64 ∧ Display.pixel s.disp r c = true ∧
    spriteBit s ((s.reg x).toNat % 64) ((s.reg y).toNat % 32) n.toNat r c = true

theorem draw_VF (answer : exec (.draw x y n) s = .next t) :
    t.reg 0xF#4 = 1 ∧ Collision s x y n ∨ t.reg 0xF#4 = 0 ∧ ¬ Collision s x y n := by
  obtain ⟨-, rfl⟩ := exec_draw_next answer
  have collides : Display.collides s.disp (originColumn (s.reg x)) (originRow (s.reg y)) (s.spriteRows n.toNat) = true ↔
      Collision s x y n := by
    simp only [collides_iff, ← spriteBit_eq_rows]
    rfl
  rw [drawRows_reg_VF]
  by_cases hit : Collision s x y n
  · exact .inl ⟨by rw [collides.mpr hit]; rfl, hit⟩
  · exact .inr ⟨by rw [Bool.eq_false_iff.mpr (mt collides.mp hit)]; rfl, hit⟩

/-- Settles O51: the rows read are the sprite's bits; each is toggled, and one of them on a lit pixel is a collision. -/
theorem drawTogglesSpritePixels : Obligations.DrawTogglesSpritePixels := by
  unfold Obligations.DrawTogglesSpritePixels
  refine fun x y n s => ⟨decodeWord_encode (.draw x y n), fun ok => ?_, exec_draw_fault⟩
  have answer := exec_draw_ok (x := x) (y := y) ok
  refine ⟨_, answer, fun r c row column => draw_pixel answer row column, ?_, rfl, drawRows_keepsRegsBut s _ _ _,
    drawRows_keepsAllBut s _ _ _⟩
  refine (draw_VF answer).imp_right fun ⟨flag, no_collision⟩ => ⟨flag, fun r c row column lit => ?_⟩
  exact Bool.eq_false_iff.mpr fun lands => no_collision ⟨r, c, row, column, lit, lands⟩

theorem draw_keeps_sprite (answer : exec (.draw x y n) s = .next t) (x0 y0 rows r c : Nat) :
    spriteBit t x0 y0 rows r c = spriteBit s x0 y0 rows r c := by
  obtain ⟨-, rfl⟩ := exec_draw_next answer
  rfl

end Draw

/-- Settles O52: the first draw leaves the operands and the sprite as they were, so the second toggles the same pixels
back, and collides wherever the first has lit one. -/
theorem drawTwiceRestores : Obligations.DrawTwiceRestores := by
  unfold Obligations.DrawTwiceRestores
  intro x y n s t x_not_VF y_not_VF first
  obtain ⟨ok, -⟩ := exec_draw_next first
  have frame := exec_keepsAllBut first
  have regs := exec_keepsRegsBut first
  have x_eq : t.reg x = s.reg x := regs x (by simpa [regsWritten] using x_not_VF)
  have y_eq : t.reg y = s.reg y := regs y (by simpa [regsWritten] using y_not_VF)
  have base_eq : t.base = s.base := congrArg BitVec.toNat (frame .I (by simp [partsWritten]))
  have second := exec_draw_ok (s := t) (x := x) (y := y) (n := n) (by rwa [base_eq])
  refine ⟨_, second, display_ext fun r c row column => ?_, ?_⟩
  · rw [draw_pixel second row column, draw_keeps_sprite first, x_eq, y_eq, draw_pixel first row column, Bool.xor_assoc,
      Bool.xor_self, Bool.xor_false]
  · rintro blank ⟨r, c, row, column, lands⟩
    have unlit : Display.pixel s.disp r c = false := by rw [blank, pixel_blankDisplay]
    have lit : Display.pixel t.disp r c = true := by rw [draw_pixel first row column, unlit, lands]; rfl
    have no_collision : ¬ Collision s x y n := fun ⟨_, _, _, _, lit, _⟩ => by simp [blank] at lit
    have collision : Collision t x y n :=
      ⟨r, c, row, column, lit, by rw [draw_keeps_sprite first, x_eq, y_eq, lands]⟩
    obtain ⟨first_flag, -⟩ := (draw_VF first).resolve_left fun ⟨_, hit⟩ => no_collision hit
    obtain ⟨second_flag, -⟩ := (draw_VF second).resolve_right fun ⟨_, missed⟩ => missed collision
    exact ⟨first_flag, second_flag⟩

end Sys2Proof.Machine
end

section
/-! Keys, timers and the random byte (spec/45_keys_timers_random.md). -/

namespace Sys2Proof.Machine

/-! Keys. -/

/-- Settles O53: below 16 the key's state is the test of the skip, above it the value is the fault's. -/
theorem keySkips : Obligations.KeySkips := by
  unfold Obligations.KeySkips
  refine fun x s => ⟨decodeWord_encode (.skipKey x), decodeWord_encode (.skipNotKey x), fun in_range => ⟨?_, ?_⟩,
    fun above => ⟨exec_skipKey_fault (by omega), exec_skipNotKey_fault (by omega)⟩⟩
  · exact exec_skip_of_iff (exec_skipKey_ok in_range) Iff.rfl
  · exact exec_skip_of_iff (exec_skipNotKey_ok in_range) (by simp)

/-- Settles O54: the least pressed key is `lowestKey`, and a key index fits a byte. -/
theorem waitKeyTakesLowestOrReplays : Obligations.WaitKeyTakesLowestOrReplays := by
  unfold Obligations.WaitKeyTakesLowestOrReplays
  refine fun x s => ⟨decodeWord_encode (.waitKey x), fun k in_range pressed least => ?_, fun none_pressed => ?_⟩
  · have lowest := lowestKey_some.mpr ⟨in_range, pressed, least⟩
    refine ⟨_, exec_waitKey_some lowest, ?_, setReg_keepsRegsBut s x _, setReg_keepsAllBut_V s x _⟩
    rw [setReg_reg_same, BitVec.toNat_ofNat, Nat.mod_eq_of_lt (by omega)]
  · exact ⟨_, exec_waitKey_none (lowestKey_none.mpr none_pressed), rfl, withPc_keepsAllBut_pc s _⟩

/-! Timers. -/

/-- Settles O55: the register written holds the delay timer. -/
theorem loadDelayTimer : Obligations.LoadDelayTimer := by
  unfold Obligations.LoadDelayTimer
  exact fun x s => ⟨decodeWord_encode (.loadDelay x), s.setReg x s.DT, rfl, setReg_reg_same s x _,
    setReg_keepsRegsBut s x _, setReg_keepsAllBut_V s x _⟩

/-- Settles O56: each instruction writes its own timer, and `beep` compares the sound timer with 0. -/
theorem setTimers : Obligations.SetTimers := by
  unfold Obligations.SetTimers
  exact fun x s => ⟨decodeWord_encode (.setDelay x), decodeWord_encode (.setSound x),
    ⟨s.withDT (s.reg x), rfl, rfl, withDT_keepsAllBut_DT s _⟩,
    ⟨s.withST (s.reg x), rfl, rfl, bne_iff_ne, withST_keepsAllBut_ST s _⟩⟩

/-! The random byte. -/

/-- A draw sets Vx to the masked byte, whatever the byte (R221). -/
theorem randomWith_reg_same (rand : Byte) (x : Nibble) (nn : Byte) (s : State) :
    (randomWith rand x nn s).reg x = rand &&& nn :=
  setReg_reg_same s x _

/-- Settles O58: the instruction is `randomWith` of the next free byte, and masking leaves no bit outside the mask. -/
theorem randomIsMaskedDraw : Obligations.RandomIsMaskedDraw := by
  unfold Obligations.RandomIsMaskedDraw
  refine fun x nn s => ⟨decodeWord_encode (.random x nn), ?_, fun rand => randomWith_reg_same rand x nn s⟩
  refine ⟨randomWith s.randByte x nn s, rfl, randomWith_reg_same _ x nn s, ?_, rfl, setReg_keepsRegsBut s x _,
    randomWith_keepsAllBut _ x nn s⟩
  rw [randomWith_reg_same, BitVec.and_assoc, BitVec.and_not_self]
  exact BitVec.and_zero

end Sys2Proof.Machine
end
